-- ==== Sys2Proof/Word.lean ====
section
/-! DEFINITION. The widths of spec/00_scope.md R8: a byte has 8 bits, an address and a word have 16, a request word has 36 (R47).
Every value is unsigned. Address arithmetic is BitVec addition, so it is modulo 2^16 (R9). -/

namespace Sys2Proof

/-- R8: "A value named `byte` has 8 bits". -/
abbrev Byte := BitVec 8

/-- R8: "`addr` and `word` have 16 bits". -/
abbrev Addr := BitVec 16

/-- R8: "`addr` and `word` have 16 bits". -/
abbrev Word := BitVec 16

/-- R47: a request is one 36-bit word. -/
abbrev ReqWord := BitVec 36

end Sys2Proof
end

