-- ==== Sys2Proof/Config.lean ====
section
/-! DEFINITION. The implementation parameters of spec/00_scope.md R6 as plain data, and the opaque constants: the free values that the
environment answers with (D13, D14), and the OPEN parameters of the machine that `State.reset` describes (D20, D21, D23).
The values R6 decides, and R7's well-formedness, stand in Machine/Parameters.lean. -/

namespace Sys2Proof

/-- A window `lo-hi` of R6, inclusive at both ends. -/
structure Window where
  lo : Addr
  hi : Addr
  deriving DecidableEq, Repr

/-- The named parameters of R6 that the source leaves open and the spec decides (D5 to D9). -/
structure AddressMap where
  ctrlAddr : Addr
  loramBit : Nat
  hiramBit : Nat
  charenBit : Nat
  defaultLatch : Byte
  basicWin : Window
  kernalWin : Window
  charIoWin : Window
  vicWin : Window
  sidWin : Window
  cia1Win : Window
  cia2Win : Window
  basicBase : Addr
  charBase : Addr
  kernalBase : Addr
  deriving DecidableEq, Repr

/-- The three ROM images of R6. -/
inductive RomImage where
  | basic
  | char
  | kernal
  deriving DecidableEq, Repr

/-- An entry of RAM_PAYLOADS (R82). A program image is its two header bytes, low byte first, and the payload bytes after them (R84), so
that "`|bytes| >= 2`" holds by construction. -/
inductive Payload where
  | monitor (dest : Addr) (bytes : List Byte)
  | program (headerLo headerHi : Byte) (payload : List Byte)
  deriving DecidableEq, Repr

/-- A configuration (R6): the named parameters, and the OPEN ones. -/
structure Config where
  map : AddressMap
  basicImg : List Byte
  charImg : List Byte
  kernalImg : List Byte
  romPatches : List (Addr × Byte)
  ramPayloads : List Payload
  endPtrAddr : Addr
  deriving DecidableEq, Repr

/-- The byte a peripheral answers to the draw of this number when no answer stands ready in the state: a free value (R22, D14; log 8). -/
opaque Config.freeDevByte : Nat → Byte

/-- The base address controller chip 2 answers to the draw of this number when no answer stands ready in the state: a free value
(R23, D13; log 9). -/
opaque Config.freeVicBase : Nat → Word

/-- BASIC_IMG of the machine `State.reset` describes: OPEN (R6); its size is right, since that machine was constructed (log 2). -/
opaque Config.openBasicImg : Vector Byte 8192

/-- CHAR_IMG of the machine `State.reset` describes (log 2). -/
opaque Config.openCharImg : Vector Byte 4096

/-- KERNAL_IMG of the machine `State.reset` describes (log 2). -/
opaque Config.openKernalImg : Vector Byte 8192

/-- ROM_PATCHES of the machine `State.reset` describes: OPEN (D23; log 2). -/
opaque Config.openRomPatches : List (Addr × Byte)

/-- The monitor images that stand before the program image in RAM_PAYLOADS of that machine: OPEN (D20; log 2). -/
opaque Config.openMonitorsBefore : List (Addr × List Byte)

/-- The program image of that machine, at most one: OPEN (D20; log 2). -/
opaque Config.openProgram : Option (Byte × Byte × List Byte)

/-- The monitor images that stand after the program image: OPEN (D20; log 2). -/
opaque Config.openMonitorsAfter : List (Addr × List Byte)

/-- END_PTR_ADDR of that machine: OPEN (D21); below 255, since the pair lies in the zero page (R7; log 2). -/
opaque Config.openEndPtr : Fin 255

end Sys2Proof
end

