-- ==== Sys2Proof/Machine/Parameters.lean ====
section
/-! DEFINITION. The values of spec/00_scope.md R6, region membership (R11), the well-formedness of a configuration (R7), and the
configuration of the machine that `State.reset` describes. -/

namespace Sys2Proof

/-- R11: `a in W` means `lo <= a <= hi`. -/
abbrev Window.Has (w : Window) (a : Addr) : Prop := w.lo ≤ a ∧ a ≤ w.hi

/-- Two windows have no address in common (a window whose low end lies above its high end has none at all). -/
abbrev Window.Disjoint (w x : Window) : Prop := w.hi < w.lo ∨ x.hi < x.lo ∨ w.hi < x.lo ∨ x.hi < w.lo

/-- Every address of the first window is one of the second. -/
abbrev Window.Inside (w x : Window) : Prop := w.hi < w.lo ∨ (x.lo ≤ w.lo ∧ w.hi ≤ x.hi)

/-- `PLANE_SIZE`. -/
def Parameters.planeSize : Nat := 65536
/-- `ZP_WIN`. -/
def Parameters.zpWin : Window := { lo := 0x0000, hi := 0x00FF }
/-- `VIC_MASK`. -/
def Parameters.vicMask : Addr := 0x7F
/-- `CIA_MASK`, both controller chips. -/
def Parameters.ciaMask : Addr := 0x0F
/-- `SID_MASK`. -/
def Parameters.sidMask : Addr := 0xFF
/-- `TRIGGER_ADDR` = 313. -/
def Parameters.triggerAddr : Addr := 313
/-- `TRIGGER_VALUE` = 255. -/
def Parameters.triggerValue : Byte := 255
/-- `VIC_LOCAL_MASK`, the 14-bit video bus. -/
def Parameters.vicLocalMask : Addr := 0x3FFF
/-- `VIC_OVR_1`. -/
def Parameters.vicOvr1 : Window := { lo := 0x1000, hi := 0x1FFF }
/-- `VIC_OVR_2`. -/
def Parameters.vicOvr2 : Window := { lo := 0x9000, hi := 0x9FFF }
/-- `BASIC_SIZE`. -/
def Parameters.basicSize : Nat := 8192
/-- `CHAR_SIZE`. -/
def Parameters.charSize : Nat := 4096
/-- `KERNAL_SIZE`. -/
def Parameters.kernalSize : Nat := 8192

/-- The values R6 decides for the named parameters (D5 to D9). -/
def Parameters.r6 : AddressMap where
  ctrlAddr := 0x0001
  loramBit := 0
  hiramBit := 1
  charenBit := 2
  defaultLatch := 0x07
  basicWin := { lo := 0xA000, hi := 0xBFFF }
  kernalWin := { lo := 0xE000, hi := 0xFFFF }
  charIoWin := { lo := 0xD000, hi := 0xDFFF }
  vicWin := { lo := 0xD000, hi := 0xD3FF }
  sidWin := { lo := 0xD400, hi := 0xD7FF }
  cia1Win := { lo := 0xDC00, hi := 0xDCFF }
  cia2Win := { lo := 0xDD00, hi := 0xDDFF }
  basicBase := 0xA000
  charBase := 0xD000
  kernalBase := 0xE000

/-- The six windows R7 wants pairwise disjoint. -/
abbrev AddressMap.switchedWindows (m : AddressMap) : List Window :=
  [m.vicWin, m.sidWin, m.cia1Win, m.cia2Win, m.basicWin, m.kernalWin]

/-- R7, first item. -/
abbrev AddressMap.WindowsDisjoint (m : AddressMap) : Prop := m.switchedWindows.Pairwise Window.Disjoint

/-- R7, second item. -/
abbrev AddressMap.PeripheralsInsideCharIo (m : AddressMap) : Prop :=
  ∀ w ∈ [m.vicWin, m.sidWin, m.cia1Win, m.cia2Win], w.Inside m.charIoWin

/-- R7, third item. -/
abbrev AddressMap.CtrlInZeroPage (m : AddressMap) : Prop := Parameters.zpWin.Has m.ctrlAddr

/-- R7, fourth item. -/
abbrev AddressMap.SpecialsOutsideWindows (m : AddressMap) : Prop :=
  ∀ w ∈ m.switchedWindows, ¬ w.Has m.ctrlAddr ∧ ¬ w.Has Parameters.triggerAddr

/-- R7, fifth item. -/
abbrev AddressMap.LatchBitsDistinct (m : AddressMap) : Prop :=
  m.loramBit < 8 ∧ m.hiramBit < 8 ∧ m.charenBit < 8 ∧
  m.loramBit ≠ m.hiramBit ∧ m.loramBit ≠ m.charenBit ∧ m.hiramBit ≠ m.charenBit

/-- R7, sixth item. -/
abbrev AddressMap.ImagesFit (m : AddressMap) : Prop :=
  m.basicBase.toNat + Parameters.basicSize ≤ Parameters.planeSize ∧
  m.charBase.toNat + Parameters.charSize ≤ Parameters.planeSize ∧
  m.kernalBase.toNat + Parameters.kernalSize ≤ Parameters.planeSize

/-- The items of R7 that speak of the named parameters. -/
abbrev AddressMap.WellFormed (m : AddressMap) : Prop :=
  m.WindowsDisjoint ∧ m.PeripheralsInsideCharIo ∧ m.CtrlInZeroPage ∧ m.SpecialsOutsideWindows ∧ m.LatchBitsDistinct ∧ m.ImagesFit

/-- Whether a payload is a program image. -/
def Payload.isProgram : Payload → Bool
  | .monitor _ _ => false
  | .program _ _ _ => true

/-- R7, last item: the end-of-program pointer pair lies in the zero page. -/
abbrev Config.EndPtrInZeroPage (c : Config) : Prop :=
  Parameters.zpWin.Has c.endPtrAddr ∧ Parameters.zpWin.Has (c.endPtrAddr + 1)

/-- R82: RAM_PAYLOADS holds "at most one program image". -/
abbrev Config.AtMostOneProgram (c : Config) : Prop := c.ramPayloads.countP Payload.isProgram ≤ 1

/-- R7, and R82's condition on the payloads (log 11). -/
abbrev Config.WellFormed (c : Config) : Prop := c.map.WellFormed ∧ c.EndPtrInZeroPage ∧ c.AtMostOneProgram

/-- R79: the three images have exactly their sizes. -/
abbrev Config.SizesRight (c : Config) : Prop :=
  c.basicImg.length = Parameters.basicSize ∧ c.charImg.length = Parameters.charSize ∧ c.kernalImg.length = Parameters.kernalSize

/-- RAM_PAYLOADS of the machine `State.reset` describes: monitor images and at most one program image, in any order (D20; log 2). -/
def Config.openPayloads : List Payload :=
  Config.openMonitorsBefore.map (fun p => .monitor p.1 p.2) ++
  (match Config.openProgram with
    | some (lo, hi, bytes) => [.program lo hi bytes]
    | none => []) ++
  Config.openMonitorsAfter.map (fun p => .monitor p.1 p.2)

/-- The configuration of the machine `State.reset` describes: R6's values, and an opaque constant for each OPEN parameter (log 2). -/
def Config.board : Config where
  map := Parameters.r6
  basicImg := Config.openBasicImg.toList
  charImg := Config.openCharImg.toList
  kernalImg := Config.openKernalImg.toList
  romPatches := Config.openRomPatches
  ramPayloads := Config.openPayloads
  endPtrAddr := BitVec.ofNat 16 Config.openEndPtr.val

end Sys2Proof
end

