-- ==== Sys2Proof/Machine/Flags.lean ====
section
/-! DEFINITION. BankController's equations (spec/41_bank_controller.md). The block has no condition flags (spec/10_state.md R13); the bits
of the bank latch are the only control bits it computes with. -/

namespace Sys2Proof.Machine

/-- R16: the values of a slot. KERNAL and BASIC only ever take RAM and ROM. -/
inductive SlotMode where
  | ram
  | rom
  | io
  deriving DecidableEq, Repr

/-- R16: the region-mode table. -/
structure ModeTable where
  kernal : SlotMode
  basic : SlotMode
  chario : SlotMode
  deriving DecidableEq, Repr

/-- R60: the HIRAM bit. -/
def latchH (m : AddressMap) (v : Byte) : Bool := v.getLsbD m.hiramBit

/-- R60: the LORAM bit. -/
def latchL (m : AddressMap) (v : Byte) : Bool := v.getLsbD m.loramBit

/-- R60: the CHAREN bit. -/
def latchC (m : AddressMap) (v : Byte) : Bool := v.getLsbD m.charenBit

/-- R61: `ModeOf(v)`. -/
def modeOf (m : AddressMap) (v : Byte) : ModeTable :=
  let h := latchH m v
  let l := latchL m v
  let c := latchC m v
  { kernal := if h then .rom else .ram
    basic := if l && h then .rom else .ram
    chario := if c && (l || h) then .io else if c && !l && !h then .ram else .rom }

end Sys2Proof.Machine
end

