-- ==== Sys2Proof/Machine/Memory.lean ====
section
/-! DEFINITION. A plane of spec/10_state.md R15 as a list of (address, byte) cells in one canonical form, relative to what an unlisted
address reads as: addresses strictly rising and below 65536, and no entry equal to what its address reads as unlisted. -/

namespace Sys2Proof.Machine

/-- The cells of one plane. -/
abbrev Memory := List Host.Cell

/-- R27: the RAM plane's reset contents, "0x00 if a is even, 0xFF if a is odd" (D15); what an unlisted RAM address reads as. -/
def ramFill (a : Nat) : Byte := if a % 2 = 0 then 0x00 else 0xFF

/-- R27: "ROM zeroed"; what an unlisted ROM address reads as. -/
def romFill (_a : Nat) : Byte := 0x00

/-- The byte at an address. -/
def Memory.read (fill : Nat → Byte) : Memory → Nat → Byte
  | [], a => fill a
  | (b, v) :: m, a => if b = a then v else Memory.read fill m a

/-- The cells with this one put at its place in rising order. -/
def Memory.insert : Memory → Nat → Byte → Memory
  | [], a, v => [(a, v)]
  | (b, w) :: m, a, v =>
    if a < b then (a, v) :: (b, w) :: m
    else if a = b then (a, v) :: m
    else (b, w) :: Memory.insert m a v

/-- The cells without any at this address. -/
def Memory.erase (m : Memory) (a : Nat) : Memory := m.filter (fun c => decide (c.1 ≠ a))

/-- Store a byte at an address, keeping the canonical form. -/
def Memory.write (fill : Nat → Byte) (m : Memory) (a : Nat) (v : Byte) : Memory :=
  if v = fill a then Memory.erase m a else Memory.insert m a v

/-- The canonical form. -/
abbrev Memory.wf (fill : Nat → Byte) (m : Memory) : Prop :=
  m.Pairwise (fun c d => c.1 < d.1) ∧ ∀ c ∈ m, c.1 < Parameters.planeSize ∧ c.2 ≠ fill c.1

/-- Store bytes at consecutive addresses, which wrap modulo 2^16 (R9, D22). -/
def Memory.writeBytes (fill : Nat → Byte) : Memory → Addr → List Byte → Memory
  | m, _, [] => m
  | m, a, b :: bs => Memory.writeBytes fill (Memory.write fill m a.toNat b) (a + 1) bs

end Sys2Proof.Machine
end

