-- ==== Sys2Proof/Machine/Operands.lean ====
section
/-! DEFINITION. Operand assembly (spec/30_encoding.md R49), byte order (spec/20_memory.md R37), the addresses a request computes, and the
region decode (R32 to R34). -/

namespace Sys2Proof.Machine

/-- R37: `v[7:0]`. -/
def lowByte (v : Word) : Byte := v.extractLsb' 0 8

/-- R37: `v[15:8]`. -/
def highByte (v : Word) : Byte := v.extractLsb' 8 8

/-- R8: `hi :: lo`, the high part first. -/
def joinBytes (hi lo : Byte) : Word := hi ++ lo

/-- R48: a byte read returns `zext_16(byte)`. -/
def zext16 (b : Byte) : Word := b.setWidth 16

/-- R38: the address of a word's second byte, `addr +16 1`. -/
def nextAddr (a : Addr) : Addr := a + 1

/-- R46: `full = VicBase() +16 (local & 0x3FFF)`. -/
def vicFullAddr (base localAddr : Addr) : Addr := base + (localAddr &&& Parameters.vicLocalMask)

/-- R75: the two override windows of the video view. -/
abbrev VicOverride (full : Addr) : Prop := Parameters.vicOvr1.Has full ∨ Parameters.vicOvr2.Has full

/-- R76: an override address shows `ROM[CHAR_BASE + (full & 0x0FFF)]`. -/
def vicCharAddr (m : AddressMap) (full : Addr) : Addr := m.charBase + (full &&& 0x0FFF)

/-- R12, R22: the four peripherals. -/
inductive Device where
  | vic
  | cia1
  | cia2
  | sid
  deriving DecidableEq, Repr

/-- R6: each device's register-address mask. -/
def Device.mask : Device → Addr
  | .vic => Parameters.vicMask
  | .cia1 => Parameters.ciaMask
  | .cia2 => Parameters.ciaMask
  | .sid => Parameters.sidMask

/-- R22: the offset the router passes to a device, already masked. -/
def devOffset (d : Device) (a : Addr) : Byte := (a &&& d.mask).setWidth 8

/-- R32: the five region classes. -/
inductive RegionClass where
  | control
  | peripheral (d : Device)
  | basic
  | kernal
  | default
  deriving DecidableEq, Repr

/-- R33: write decode, the first match wins. -/
def writeClass (m : AddressMap) (a : Addr) : RegionClass :=
  if a = m.ctrlAddr then .control
  else if m.vicWin.Has a then .peripheral .vic
  else if m.cia1Win.Has a then .peripheral .cia1
  else if m.cia2Win.Has a then .peripheral .cia2
  else if m.sidWin.Has a then .peripheral .sid
  else .default

/-- R34: read decode, the first match wins. CTRL_ADDR and SID_WIN have no read class of their own. -/
def readClass (m : AddressMap) (a : Addr) : RegionClass :=
  if m.vicWin.Has a then .peripheral .vic
  else if m.cia1Win.Has a then .peripheral .cia1
  else if m.cia2Win.Has a then .peripheral .cia2
  else if m.basicWin.Has a then .basic
  else if m.kernalWin.Has a then .kernal
  else .default

end Sys2Proof.Machine
end

