-- ==== Sys2Proof/Machine/Loader.lean ====
section
/-! DEFINITION. ROMLoader/Patcher (spec/44_rom_loader_patcher.md) on the planes: load, patch_roms, and the payload copies of patch_ram. -/

namespace Sys2Proof.Machine

/-- R89: the one fault. Its size check and its taking are R79 and R90. -/
def wrongSize (c : Config) : Option (RomImage × Nat) :=
  if c.basicImg.length ≠ Parameters.basicSize then some (.basic, c.basicImg.length)
  else if c.charImg.length ≠ Parameters.charSize then some (.char, c.charImg.length)
  else if c.kernalImg.length ≠ Parameters.kernalSize then some (.kernal, c.kernalImg.length)
  else none

/-- R80: load(), the three images at their bases. -/
def loadImages (c : Config) (rom : Memory) : Memory :=
  let rom := Memory.writeBytes romFill rom c.map.basicBase c.basicImg
  let rom := Memory.writeBytes romFill rom c.map.charBase c.charImg
  Memory.writeBytes romFill rom c.map.kernalBase c.kernalImg

/-- R81: patch_roms(), the overwrites in list order. -/
def patchRoms (patches : List (Addr × Byte)) (rom : Memory) : Memory :=
  patches.foldl (fun rom p => Memory.write romFill rom p.1.toNat p.2) rom

/-- R83: copy_monitor. -/
def copyMonitor (dest : Addr) (bytes : List Byte) (ram : Memory) : Memory := Memory.writeBytes ramFill ram dest bytes

/-- R84: the load address of a program image, its little-endian header. -/
def programStart (headerLo headerHi : Byte) : Addr := joinBytes headerHi headerLo

/-- R85: the end-of-program pointer `L +16 n`, one past the last payload byte. -/
def programEnd (headerLo headerHi : Byte) (payload : List Byte) : Addr :=
  programStart headerLo headerHi + BitVec.ofNat 16 payload.length

/-- R84, R85: copy_program, the payload bytes and then the little-endian pointer pair. -/
def copyProgram (endPtrAddr : Addr) (headerLo headerHi : Byte) (payload : List Byte) (ram : Memory) : Memory :=
  let ram := Memory.writeBytes ramFill ram (programStart headerLo headerHi) payload
  let endPtr := programEnd headerLo headerHi payload
  let ram := Memory.write ramFill ram endPtrAddr.toNat (lowByte endPtr)
  Memory.write ramFill ram (nextAddr endPtrAddr).toNat (highByte endPtr)

/-- R82: one entry of RAM_PAYLOADS. -/
def copyPayload (endPtrAddr : Addr) (ram : Memory) : Payload → Memory
  | .monitor dest bytes => copyMonitor dest bytes ram
  | .program headerLo headerHi payload => copyProgram endPtrAddr headerLo headerHi payload ram

/-- R82: patch_ram(), the entries in list order. -/
def patchRam (c : Config) (ram : Memory) : Memory := c.ramPayloads.foldl (copyPayload c.endPtrAddr) ram

/-- R27: the ROM plane after construction. -/
def romBuilt (c : Config) : Memory := patchRoms c.romPatches (loadImages c [])

/-- R27: the RAM plane after construction: the fill, and the latch byte at CTRL_ADDR. -/
def ramBuilt (c : Config) : Memory := Memory.write ramFill [] c.map.ctrlAddr.toNat c.map.defaultLatch

end Sys2Proof.Machine
end

