-- ==== Sys2Proof/Syntax.lean ====
section
/-! DEFINITION. The requests of spec/30_encoding.md: one constructor per row of spec/opcode_table.json, the three fields of a request
word (R47), and the reasons a request is refused for (spec/60_exceptions.md R91). -/

namespace Sys2Proof

/-- R50: one constructor per opcode-table row, its operands as R49 takes them. VRD keeps all 16 bits of ADDR: bits 15:14 may take either
value and are ignored by its meaning. -/
inductive Instr where
  | rdb (addr : Addr)
  | wrb (addr : Addr) (v : Byte)
  | rdw (addr : Addr)
  | wrw (addr : Addr) (v : Word)
  | rdbn (addr : Addr)
  | wrbn (addr : Addr) (v : Byte)
  | rdwn (addr : Addr)
  | wrwn (addr : Addr) (v : Word)
  | vrd (addr : Addr)
  | reset
  deriving DecidableEq, Repr

/-- R47: the fields OP (35:32), ADDR (31:16) and DATA (15:0) of a request word. -/
structure ReqFields where
  op : BitVec 4
  addr : Addr
  data : Word
  deriving DecidableEq, Repr

/-- R91: the reasons of a refusal response. The first two come from the encoding, the others from the lifecycle phase. -/
inductive RefusalReason where
  /-- `RESERVED_OP`, naming the opcode (R51). -/
  | reservedOp (op : BitVec 4)
  /-- `RESERVED_FIELD` (R52). -/
  | reservedField
  /-- `NOT_BUILT`: a request other than RESET while PHASE = UNBUILT. -/
  | notBuilt
  /-- `ALREADY_BUILT`: RESET while PHASE = READY. -/
  | alreadyBuilt
  /-- `FAILED`: any request while PHASE = FAILED. -/
  | failed
  deriving DecidableEq, Repr

end Sys2Proof
end

