-- ==== Sys2Proof/Machine/State.lean ====
section
/-! DEFINITION. The state of the block (spec/10_state.md), the reasons a step can stop, and the state after reset (R27). -/

namespace Sys2Proof.Machine

/-- R21: the lifecycle phase. -/
inductive Phase where
  | unbuilt
  | ready
  | failed
  deriving DecidableEq, Repr

/-- R24: the events of TRACE. -/
inductive Event where
  | prd (d : Device) (off : Byte) (value : Byte)
  | pwr (d : Device) (off : Byte) (v : Byte)
  | vbase (value : Word)
  | hook
  deriving DecidableEq, Repr

/-- R89: the block's one fault. RESET takes it as R90 says, and the machine goes on in phase FAILED: the fault is data of RESET's
response. No step of this model ends in `Outcome.fault` (log 5); safe. -/
inductive Fault where
  /-- `Fault(ROM_IMAGE_SIZE)`: raised by RESET; it records which image failed and the size it had. Safe. -/
  | romImageSize (image : RomImage) (size : Nat)
  deriving DecidableEq, Repr

/-- The model's own refusals; the block's refusals (R91) are responses, not these. -/
inductive Refusal where
  /-- Raised by exec for an instruction that has no meaning yet. Safe: the model stops. -/
  | notModelled (mnemonic : String)
  /-- R7: "A model refuses a configuration that is not well-formed". Raised by RESET in phase UNBUILT. Safe: the model stops. -/
  | illFormedConfig
  deriving DecidableEq, Repr

/-- R48: what a request returns. -/
inductive Response where
  /-- RDATA of a read request. -/
  | data (v : Word)
  /-- The acknowledgement of a write request. -/
  | ack
  /-- RESET's resulting phase READY. -/
  | ready
  /-- RESET's resulting phase FAILED, with the fault it reports (R90). -/
  | failed (f : Fault)
  /-- A refusal with its reason (R91). -/
  | refused (r : RefusalReason)
  deriving DecidableEq, Repr

/-- The state. The first block is the spec's; `requests`, `devAnswers`, `vicBases` and `draws` are the model's own inputs from the agents
at the ports (R97). -/
structure State where
  /-- R6, R25: the configuration; no step changes it. -/
  cfg : Config
  /-- R21. -/
  phase : Phase
  /-- R15: the RAM plane. -/
  ram : Memory
  /-- R15: the ROM plane. -/
  rom : Memory
  /-- R17: the value of the most recent set_config. -/
  latch : Byte
  /-- R24: oldest first. -/
  trace : List Event
  /-- R48, R107: the responses given, oldest first. -/
  responses : List Response
  /-- R42: the requests issued and not yet answered, in their total order. -/
  requests : List ReqWord
  /-- R22: the answers that stand ready for the next DevReads. -/
  devAnswers : List Byte
  /-- R23: the answers that stand ready for the next VicBase() calls. -/
  vicBases : List Word
  /-- The number of answers drawn so far. -/
  draws : Nat
  deriving DecidableEq, Repr

/-- R27, R101: the state after a successful construction of the machine `Config.board`, with no further request issued. -/
def State.reset : State where
  cfg := Config.board
  phase := .ready
  ram := ramBuilt Config.board
  rom := romBuilt Config.board
  latch := Config.board.map.defaultLatch
  trace := []
  responses := [.ready]
  requests := []
  devAnswers := []
  vicBases := []
  draws := 0

end Sys2Proof.Machine
end

