-- ==== Sys2Proof/Machine/Ops.lean ====
section
/-! DEFINITION. The named operations the meanings are written over: the plane primitives (spec/40_address_space.md), the ports and the
trace (spec/10_state.md R22 to R24), set_config, the routed byte accesses (spec/42_bus_router.md), the video view, construction, taking
the fault, and the responses (spec/30_encoding.md R48). -/

namespace Sys2Proof.Machine

/-- R16, R17: `MODE = ModeOf(LATCH)`. -/
def State.mode (s : State) : ModeTable := modeOf s.cfg.map s.latch

/-- R55: `RamRead(a)`. -/
def ramRead (s : State) (a : Addr) : Byte := Memory.read ramFill s.ram a.toNat

/-- R56: `RamWrite(a, v)`. -/
def ramWrite (a : Addr) (v : Byte) (s : State) : State := { s with ram := Memory.write ramFill s.ram a.toNat v }

/-- R57: `RomRead(a)`. -/
def romRead (s : State) (a : Addr) : Byte := Memory.read romFill s.rom a.toNat

/-- R24: `emit(e)`. -/
def emit (e : Event) (s : State) : State := { s with trace := s.trace ++ [e] }

/-- R48: give a response. -/
def respond (r : Response) (s : State) : State := { s with responses := s.responses ++ [r] }

/-- R22: the byte the next DevRead is answered with: the one that stands ready, or else a free value (log 8). -/
def nextDevByte (s : State) : Byte :=
  match s.devAnswers with
  | b :: _ => b
  | [] => Config.freeDevByte s.draws

/-- R23: the base the next VicBase() is answered with: the one that stands ready, or else a free value (log 9). -/
def nextVicBase (s : State) : Word :=
  match s.vicBases with
  | b :: _ => b
  | [] => Config.freeVicBase s.draws

/-- R10, R24: `DevRead(d, off)`, recorded as `PRD(d, off, value)`. -/
def devRead (d : Device) (off : Byte) (s : State) : Byte × State :=
  (nextDevByte s, emit (.prd d off (nextDevByte s)) { s with devAnswers := s.devAnswers.tail, draws := s.draws + 1 })

/-- R10, R24: `DevWrite(d, off, v)`, recorded as `PWR(d, off, v)`. -/
def devWrite (d : Device) (off : Byte) (v : Byte) (s : State) : State := emit (.pwr d off v) s

/-- R10, R24: `VicBase()`, recorded as `VBASE(value)`. -/
def vicBase (s : State) : Word × State :=
  (nextVicBase s, emit (.vbase (nextVicBase s)) { s with vicBases := s.vicBases.tail, draws := s.draws + 1 })

/-- R63: `set_config(v)`: the latch, and the verbatim store through RamWrite. -/
def setConfig (v : Byte) (s : State) : State := ramWrite s.cfg.map.ctrlAddr v { s with latch := v }

/-- R82, R66: record HOOK and run patch_ram(). -/
def runHook (s : State) : State :=
  let s := emit .hook s
  { s with ram := patchRam s.cfg s.ram }

/-- R66, class DEFAULT: the RAM store, then the trigger check. -/
def defaultStore (a : Addr) (v : Byte) (s : State) : State :=
  let s := ramWrite a v s
  if a = Parameters.triggerAddr ∧ v = Parameters.triggerValue then runHook s else s

/-- R35, R66: a write to a peripheral window reaches the device in IO mode and the RAM plane otherwise. -/
def peripheralStore (d : Device) (a : Addr) (v : Byte) (s : State) : State :=
  if s.mode.chario = .io then devWrite d (devOffset d a) v s else ramWrite a v s

/-- R66: `write_byte(a, v)`. Write decode never gives BASIC or KERNAL (R33). -/
def writeByte (a : Addr) (v : Byte) (s : State) : State :=
  match writeClass s.cfg.map a with
  | .control => setConfig v s
  | .peripheral d => peripheralStore d a v s
  | .basic => defaultStore a v s
  | .kernal => defaultStore a v s
  | .default => defaultStore a v s

/-- R35: what a read of a window whose slot shows ROM or RAM returns. -/
def overlayRead (slot : SlotMode) (a : Addr) (s : State) : Byte := if slot = .rom then romRead s a else ramRead s a

/-- R35, R67: a read of a peripheral window. Only the video window has a ROM overlay. -/
def peripheralLoad (d : Device) (a : Addr) (s : State) : Byte × State :=
  if s.mode.chario = .io then devRead d (devOffset d a) s
  else if d = .vic then (overlayRead s.mode.chario a s, s)
  else (ramRead s a, s)

/-- R67: `read_byte(a)`. Read decode never gives CONTROL or PERIPHERAL(SID) (R34). -/
def readByte (a : Addr) (s : State) : Byte × State :=
  match readClass s.cfg.map a with
  | .peripheral d => peripheralLoad d a s
  | .basic => (overlayRead s.mode.basic a s, s)
  | .kernal => (overlayRead s.mode.kernal a s, s)
  | .control => (ramRead s a, s)
  | .default => (ramRead s a, s)

/-- R68: `write_word(a, v)`: the low byte, then the high byte under the state the low one left. -/
def writeWord (a : Addr) (v : Word) (s : State) : State := writeByte (nextAddr a) (highByte v) (writeByte a (lowByte v) s)

/-- R69: `read_word(a)`: the low byte first. -/
def readWord (a : Addr) (s : State) : Word × State :=
  let lo := readByte a s
  let hi := readByte (nextAddr a) lo.2
  (joinBytes hi.1 lo.1, hi.2)

/-- R75: what the video view shows at a full address. -/
def vicShows (full : Addr) (s : State) : Byte :=
  if VicOverride full then romRead s (vicCharAddr s.cfg.map full) else ramRead s full

/-- R75: `vic_read_byte(local)`. -/
def vicReadByte (localAddr : Addr) (s : State) : Byte × State :=
  let b := vicBase s
  (vicShows (vicFullAddr b.1 localAddr) b.2, b.2)

/-- R90: taking the fault: PHASE becomes FAILED, and the response reports it once. -/
def raiseFault (f : Fault) (s : State) : State := respond (.failed f) { s with phase := .failed }

/-- R91: refuse a request: nothing but the response changes. -/
def refuse (r : RefusalReason) (s : State) : State := respond (.refused r) s

/-- R78: `construct()`. -/
def construct (s : State) : State :=
  let s := { s with ram := [], rom := [], trace := [] }
  match wrongSize s.cfg with
  | some (image, size) => raiseFault (.romImageSize image size) s
  | none =>
    let s := { s with rom := loadImages s.cfg s.rom }
    let s := { s with rom := patchRoms s.cfg.romPatches s.rom }
    let s := setConfig s.cfg.map.defaultLatch s
    respond .ready { s with phase := .ready }

/-- R91: the reason a bus request (any but RESET) is refused for, by the phase. -/
def busRefusal : Phase → Option RefusalReason
  | .unbuilt => some .notBuilt
  | .ready => none
  | .failed => some .failed

/-- R21: only READY accepts bus requests; a refused one is answered with its reason. -/
def serve (s : State) (effect : State → State) : Host.Outcome State Fault Refusal :=
  match busRefusal s.phase with
  | some r => .next (refuse r s)
  | none => .next (effect s)

/-- R48: the answer to a byte read: the state after it, with RDATA zero-extended. -/
def answerByte (r : Byte × State) : State := respond (.data (zext16 r.1)) r.2

/-- R48: the answer to a word read. -/
def answerWord (r : Word × State) : State := respond (.data r.1) r.2

end Sys2Proof.Machine
end

