-- ==== Sys2Proof/Machine/Construction.lean ====
section
/-! DEFINITION. The host's request of spec/44_rom_loader_patcher.md: RESET, machine construction. -/

namespace Sys2Proof.Machine

/-- R78, accepted only when PHASE = UNBUILT (R91, D18); a configuration that is not well-formed is refused by the model (R7; log 7). -/
def execReset (s : State) : Host.Outcome State Fault Refusal :=
  match s.phase with
  | .unbuilt => if s.cfg.WellFormed then .next (construct s) else .refused .illFormedConfig
  | .ready => .next (refuse .alreadyBuilt s)
  | .failed => .next (refuse .failed s)

end Sys2Proof.Machine
end

