-- ==== Sys2Proof/Machine/NoIo.lean ====
section
/-! DEFINITION. The no-I/O requests of spec/42_bus_router.md, which touch the RAM plane only: RDBN, WRBN, RDWN, WRWN. -/

namespace Sys2Proof.Machine

/-- R71. -/
def execRdbn (a : Addr) (s : State) : Host.Outcome State Fault Refusal := serve s fun s => answerByte (ramRead s a, s)

/-- R70. -/
def execWrbn (a : Addr) (v : Byte) (s : State) : Host.Outcome State Fault Refusal := serve s fun s => respond .ack (ramWrite a v s)

/-- R73. -/
def execRdwn (a : Addr) (s : State) : Host.Outcome State Fault Refusal :=
  serve s fun s => answerWord (joinBytes (ramRead s (nextAddr a)) (ramRead s a), s)

/-- R72. -/
def execWrwn (a : Addr) (v : Word) (s : State) : Host.Outcome State Fault Refusal :=
  serve s fun s => respond .ack (ramWrite (nextAddr a) (highByte v) (ramWrite a (lowByte v) s))

end Sys2Proof.Machine
end

