-- ==== Sys2Proof/Machine/Routed.lean ====
section
/-! DEFINITION. The routed requests of spec/42_bus_router.md: RDB, WRB, RDW, WRW. -/

namespace Sys2Proof.Machine

/-- R67. -/
def execRdb (a : Addr) (s : State) : Host.Outcome State Fault Refusal := serve s fun s => answerByte (readByte a s)

/-- R66. -/
def execWrb (a : Addr) (v : Byte) (s : State) : Host.Outcome State Fault Refusal := serve s fun s => respond .ack (writeByte a v s)

/-- R69. -/
def execRdw (a : Addr) (s : State) : Host.Outcome State Fault Refusal := serve s fun s => answerWord (readWord a s)

/-- R68. -/
def execWrw (a : Addr) (v : Word) (s : State) : Host.Outcome State Fault Refusal := serve s fun s => respond .ack (writeWord a v s)

end Sys2Proof.Machine
end

