-- ==== Sys2Proof/Machine/Video.lean ====
section
/-! DEFINITION. The video chip's request of spec/43_vic_bus_view.md: VRD. -/

namespace Sys2Proof.Machine

/-- R75. -/
def execVrd (localAddr : Addr) (s : State) : Host.Outcome State Fault Refusal := serve s fun s => answerByte (vicReadByte localAddr s)

end Sys2Proof.Machine
end

