-- ==== Sys2Proof/Machine/Dispatch.lean ====
section
/-! DEFINITION. One arm per request: its meaning. -/

namespace Sys2Proof.Machine

def exec (i : Instr) (s : State) : Host.Outcome State Fault Refusal :=
  match i with
  | .rdb a => Sys2Proof.Machine.execRdb a s
  | .wrb a v => Sys2Proof.Machine.execWrb a v s
  | .rdw a => Sys2Proof.Machine.execRdw a s
  | .wrw a v => Sys2Proof.Machine.execWrw a v s
  | .rdbn a => Sys2Proof.Machine.execRdbn a s
  | .wrbn a v => Sys2Proof.Machine.execWrbn a v s
  | .rdwn a => Sys2Proof.Machine.execRdwn a s
  | .wrwn a v => Sys2Proof.Machine.execWrwn a v s
  | .vrd a => Sys2Proof.Machine.execVrd a s
  | .reset => Sys2Proof.Machine.execReset s

end Sys2Proof.Machine
end

