-- ==== Sys2Proof/WellFormed.lean ====
section
/-! DEFINITION. What makes the fields of a request word well-formed (spec/30_encoding.md R51, R52). Every term of `Instr` is well-formed
by its type, since its operands have exactly the widths R49 gives them; the checks are on the raw fields. R7's check of a configuration
is `Config.WellFormed` in Machine/Parameters.lean. -/

namespace Sys2Proof

/-- R51: opcodes 0x9-0xE are reserved. -/
abbrev ReqFields.OpReserved (f : ReqFields) : Prop := 0x9#4 ≤ f.op ∧ f.op ≤ 0xE#4

/-- R52, first case: RDB, RDW, RDBN, RDWN and VRD carry no data. -/
abbrev ReqFields.CarriesNoData (f : ReqFields) : Prop := f.op ∈ [0x0#4, 0x2#4, 0x4#4, 0x6#4, 0x8#4]

/-- R52, second case: WRB and WRBN carry one byte. -/
abbrev ReqFields.CarriesByte (f : ReqFields) : Prop := f.op ∈ [0x1#4, 0x5#4]

/-- R52, third case: RESET carries nothing. -/
abbrev ReqFields.IsReset (f : ReqFields) : Prop := f.op = 0xF#4

/-- R52: every must-be-zero field is zero. -/
abbrev ReqFields.ReservedZero (f : ReqFields) : Prop :=
  (f.CarriesNoData → f.data = 0) ∧
  (f.CarriesByte → f.data.extractLsb' 8 8 = 0) ∧
  (f.IsReset → f.addr = 0 ∧ f.data = 0)

/-- A request the decoder accepts: its opcode spells an operation (R51) and its reserved fields are zero (R52). -/
abbrev ReqFields.WellFormed (f : ReqFields) : Prop := ¬ f.OpReserved ∧ f.ReservedZero

end Sys2Proof
end

