-- ==== Sys2Proof/Decode.lean ====
section
/-! DEFINITION. The decoder of spec/30_encoding.md, total on every 36-bit word, and after it the encoder. -/

namespace Sys2Proof

/-- R47: bits 35:32 are OP, 31:16 ADDR, 15:0 DATA. -/
def fieldsOf (w : ReqWord) : ReqFields :=
  { op := w.extractLsb' 32 4, addr := w.extractLsb' 16 16, data := w.extractLsb' 0 16 }

/-- R49: byte writes use `DATA[7:0]`. -/
def dataByte (d : Word) : Byte := d.extractLsb' 0 8

/-- R50: the request that well-formed fields spell; a reserved opcode spells none. -/
def instrOf (f : ReqFields) : Option Instr :=
  match f.op.toNat with
  | 0x0 => some (.rdb f.addr)
  | 0x1 => some (.wrb f.addr (dataByte f.data))
  | 0x2 => some (.rdw f.addr)
  | 0x3 => some (.wrw f.addr f.data)
  | 0x4 => some (.rdbn f.addr)
  | 0x5 => some (.wrbn f.addr (dataByte f.data))
  | 0x6 => some (.rdwn f.addr)
  | 0x7 => some (.wrwn f.addr f.data)
  | 0x8 => some (.vrd f.addr)
  | 0xF => some .reset
  | _ => none

/-- R50 to R52: the request a word spells, or the reason it is refused for: `RESERVED_OP` where OP spells no operation, `RESERVED_FIELD`
where a must-be-zero field is not zero. -/
def decode (w : ReqWord) : Except RefusalReason Instr :=
  let f := fieldsOf w
  match instrOf f with
  | none => .error (.reservedOp f.op)
  | some i => if f.ReservedZero then .ok i else .error .reservedField

/-- R53: `word = (OP << 32) | (ADDR << 16) | DATA`. -/
def packFields (f : ReqFields) : ReqWord := (f.op ++ f.addr ++ f.data).cast (by decide)

/-- R49: the byte of a byte write stands in `DATA[7:0]`, and `DATA[15:8]` is zero. -/
def byteData (v : Byte) : Word := 0#8 ++ v

/-- The fields that spell a request, by R50's table. -/
def encodeFields : Instr → ReqFields
  | .rdb a => { op := 0x0, addr := a, data := 0 }
  | .wrb a v => { op := 0x1, addr := a, data := byteData v }
  | .rdw a => { op := 0x2, addr := a, data := 0 }
  | .wrw a v => { op := 0x3, addr := a, data := v }
  | .rdbn a => { op := 0x4, addr := a, data := 0 }
  | .wrbn a v => { op := 0x5, addr := a, data := byteData v }
  | .rdwn a => { op := 0x6, addr := a, data := 0 }
  | .wrwn a v => { op := 0x7, addr := a, data := v }
  | .vrd a => { op := 0x8, addr := a, data := 0 }
  | .reset => { op := 0xF, addr := 0, data := 0 }

/-- The request word of a request (R47, R50, R53). -/
def encode (i : Instr) : ReqWord := packFields (encodeFields i)

/-- The request read from an opcode-table row's bits. A request is one 36-bit word (R47); a number with a bit above bit 35 is none. The
number of bits the table gives a row adds nothing: every request has this one length. -/
def decodeTableWord (_nbits w : Nat) : Option Instr :=
  if w < 2 ^ 36 then
    match decode (BitVec.ofNat 36 w) with
    | .ok i => some i
    | .error _ => none
  else none

end Sys2Proof
end

