-- ==== Sys2Proof/Machine/Port.lean ====
section
/-! DEFINITION. The request port: taking the next request word from the queue, and what happens where it spells no request. -/

namespace Sys2Proof.Machine

/-- R42: the next request in the total order, and the state with the queue moved past it. -/
def takeRequest (s : State) : Option (ReqWord × State) :=
  match s.requests with
  | [] => none
  | w :: rest => some (w, { s with requests := rest })

/-- Put a request word at the front of the queue. -/
def issueFirst (w : ReqWord) (s : State) : State := { s with requests := w :: s.requests }

/-- R50: whether a word's OP is RESET's, its fields aside. -/
def namesReset (w : ReqWord) : Bool := (fieldsOf w).op == (encodeFields .reset).op

/-- The reason a word that spells no request is refused for, `r` being its encoding's (R51, R52). In UNBUILT every request except RESET is
refused as `NOT_BUILT` (R91, D32), and in FAILED every request as `FAILED` (R90, R91). In READY a RESET word with a nonzero reserved field
is refused on two grounds, `RESERVED_FIELD` (R52) and `ALREADY_BUILT` (R91), and the spec orders them nowhere. DESIGN CHOICE: it is
`RESERVED_FIELD` (log 6). -/
def wordRefusal (w : ReqWord) (r : RefusalReason) : Phase → RefusalReason
  | .unbuilt => if namesReset w then r else .notBuilt
  | .ready => r
  | .failed => .failed

/-- R51, R52, R90, R91: a word that spells no request, or a field of which must be zero and is not, is refused with its reason. -/
def refuseWord (w : ReqWord) (r : RefusalReason) (s : State) : Host.Outcome State Fault Refusal :=
  .next (refuse (wordRefusal w r s.phase) s)

/-- R107: the block never stops by itself; with no request to answer, nothing changes (log 4). -/
def idle (s : State) : Host.Outcome State Fault Refusal := .next s

end Sys2Proof.Machine
end

