-- ==== Sys2Proof/Machine/Step.lean ====
section
/-! DEFINITION. One step: the block answers the next request (spec/00_scope.md R5, spec/20_memory.md R42). -/

namespace Sys2Proof.Machine

/-- R5: one request is answered whole before the next one starts. -/
def step (s : State) : Host.Outcome State Fault Refusal :=
  match takeRequest s with
  | none => idle s
  | some (w, s) =>
    match decode w with
    | .ok i => exec i s
    | .error r => refuseWord w r s

/-- The state with this request issued ahead of every other, so that the next step answers it (log 3). -/
def State.withFetchWord (s : State) (_nbits w : Nat) : State := issueFirst (BitVec.ofNat 36 w) s

end Sys2Proof.Machine
end

