-- ==== Sys2Proof/Machine/Assembler.lean ====
section
/-! DEFINITION. The textual syntax of spec/30_encoding.md R53 and the pseudo-requests of R54, over lists of characters, and the text of a
request. A line holds at most one request. More blanks than one count as one, and blanks around a comma do not matter; that a blank must
follow the requester prefix and the mnemonic is the model's choice (log 12). -/

namespace Sys2Proof.Machine

/-- R53: "the mnemonics are case-insensitive"; so are the hex digits and the requester here (log 12). -/
def asmLower (line : List Char) : List Char := line.map Char.toLower

/-- R53: "`;` starts a comment". -/
def asmNoComment (line : List Char) : List Char := line.takeWhile (fun c => decide (c ≠ ';'))

/-- Whether a character separates the parts of a line. R53 does not say which do. DESIGN CHOICE: a space and a tab do, and nothing else: a
line end is no blank, since a request stands on one line (log 12). -/
def asmBlank (c : Char) : Bool := c == ' ' || c == '\t'

/-- A word in progress, put before the words after it. -/
def asmPush (cur : List Char) (rest : List (List Char)) : List (List Char) := if cur = [] then rest else cur.reverse :: rest

/-- The words of a line; a comma is a word of its own. -/
def asmWords : List Char → List Char → List (List Char)
  | [], cur => asmPush cur []
  | c :: cs, cur =>
    if asmBlank c then asmPush cur (asmWords cs [])
    else if c = ',' then asmPush cur ([','] :: asmWords cs [])
    else asmWords cs (c :: cur)

/-- The value of a hex digit. -/
def asmDigit (c : Char) : Option Nat :=
  if '0'.toNat ≤ c.toNat ∧ c.toNat ≤ '9'.toNat then some (c.toNat - '0'.toNat)
  else if 'a'.toNat ≤ c.toNat ∧ c.toNat ≤ 'f'.toNat then some (c.toNat - 'a'.toNat + 10)
  else none

/-- The value of hex digits. -/
def asmHex : List Char → Nat → Option Nat
  | [], n => some n
  | c :: cs, n =>
    match asmDigit c with
    | some d => asmHex cs (16 * n + d)
    | none => none

/-- R53: `$hhhh`. -/
def asmAddr : List Char → Option Addr
  | '$' :: ds => if ds.length = 4 then (asmHex ds 0).map (BitVec.ofNat 16) else none
  | _ => none

/-- R53: `#$hh`. -/
def asmByte : List Char → Option Byte
  | '#' :: '$' :: ds => if ds.length = 2 then (asmHex ds 0).map (BitVec.ofNat 8) else none
  | _ => none

/-- R53: `#$hhhh`. -/
def asmWord : List Char → Option Word
  | '#' :: '$' :: ds => if ds.length = 4 then (asmHex ds 0).map (BitVec.ofNat 16) else none
  | _ => none

/-- R53: the optional prefix names the requester and has no effect. R53 does not say whether a blank must follow it. DESIGN CHOICE: it
must, the prefix being a word of its own, so `cpu:RDB $E001` spells no request (log 12). -/
def asmNoRequester : List (List Char) → List (List Char)
  | w :: ws => if w = ['c', 'p', 'u', ':'] ∨ w = ['v', 'i', 'c', ':'] ∨ w = ['h', 'o', 's', 't', ':'] then ws else w :: ws
  | [] => []

/-- R53's forms, and R54's pseudo-requests with R6's values. -/
def asmRequest : List (List Char) → Option Instr
  | [['r', 'd', 'b'], a] => (asmAddr a).map .rdb
  | [['r', 'd', 'w'], a] => (asmAddr a).map .rdw
  | [['r', 'd', 'b', 'n'], a] => (asmAddr a).map .rdbn
  | [['r', 'd', 'w', 'n'], a] => (asmAddr a).map .rdwn
  | [['v', 'r', 'd'], a] => (asmAddr a).map .vrd
  | [['r', 'e', 's', 'e', 't']] => some .reset
  | [['w', 'r', 'b'], a, [','], v] => (asmAddr a).bind fun a => (asmByte v).map (.wrb a)
  | [['w', 'r', 'w'], a, [','], v] => (asmAddr a).bind fun a => (asmWord v).map (.wrw a)
  | [['w', 'r', 'b', 'n'], a, [','], v] => (asmAddr a).bind fun a => (asmByte v).map (.wrbn a)
  | [['w', 'r', 'w', 'n'], a, [','], v] => (asmAddr a).bind fun a => (asmWord v).map (.wrwn a)
  | [['b', 'a', 'n', 'k'], v] => (asmByte v).map (.wrb Parameters.r6.ctrlAddr)
  | [['t', 'r', 'i', 'g', 'g', 'e', 'r']] => some (.wrb Parameters.triggerAddr Parameters.triggerValue)
  | [['p', 'e', 'e', 'k', 'l', 'a', 't', 'c', 'h']] => some (.rdbn Parameters.r6.ctrlAddr)
  | _ => none

/-- R53: the request a line spells; none for a line that spells none. The argument is one line without its line end (log 12). -/
def assemble (line : List Char) : Option Instr := asmRequest (asmNoRequester (asmWords (asmLower (asmNoComment line)) []))

/-- A hex digit, in lower case. -/
def asmDigitText (n : Nat) : Char := if n < 10 then Char.ofNat ('0'.toNat + n) else Char.ofNat ('a'.toNat + (n - 10))

/-- Two hex digits. -/
def asmByteText (v : Byte) : List Char := [asmDigitText (v.toNat / 16), asmDigitText (v.toNat % 16)]

/-- Four hex digits. -/
def asmWordText (v : Word) : List Char := asmByteText (v.extractLsb' 8 8) ++ asmByteText (v.extractLsb' 0 8)

/-- `$hhhh`. -/
def asmAddrText (a : Addr) : List Char := '$' :: asmWordText a

/-- R53: the text of a request. -/
def disassemble : Instr → List Char
  | .rdb a => 'r' :: 'd' :: 'b' :: ' ' :: asmAddrText a
  | .wrb a v => 'w' :: 'r' :: 'b' :: ' ' :: (asmAddrText a ++ ',' :: ' ' :: '#' :: '$' :: asmByteText v)
  | .rdw a => 'r' :: 'd' :: 'w' :: ' ' :: asmAddrText a
  | .wrw a v => 'w' :: 'r' :: 'w' :: ' ' :: (asmAddrText a ++ ',' :: ' ' :: '#' :: '$' :: asmWordText v)
  | .rdbn a => 'r' :: 'd' :: 'b' :: 'n' :: ' ' :: asmAddrText a
  | .wrbn a v => 'w' :: 'r' :: 'b' :: 'n' :: ' ' :: (asmAddrText a ++ ',' :: ' ' :: '#' :: '$' :: asmByteText v)
  | .rdwn a => 'r' :: 'd' :: 'w' :: 'n' :: ' ' :: asmAddrText a
  | .wrwn a v => 'w' :: 'r' :: 'w' :: 'n' :: ' ' :: (asmAddrText a ++ ',' :: ' ' :: '#' :: '$' :: asmWordText v)
  | .vrd a => 'v' :: 'r' :: 'd' :: ' ' :: asmAddrText a
  | .reset => ['r', 'e', 's', 'e', 't']

end Sys2Proof.Machine
end

