-- ==== Sys2Proof/Safety.lean ====
section
/-! DEFINITION. The terms in which claims speak of runs: the observation (spec/70_reset_and_hazards.md R107), the mark of a refusal
(spec/60_exceptions.md R91), a running machine (R90), what a payload covers (spec/42_bus_router.md R74), and the invariant. -/

namespace Sys2Proof.Machine

/-- R107: the observation of a run, "the tuple (`PHASE`, `RAM`, `ROM`, `LATCH`, `TRACE`, responses)". -/
structure Observation where
  phase : Phase
  ram : Memory
  rom : Memory
  latch : Byte
  trace : List Event
  responses : List Response
  deriving DecidableEq, Repr

/-- R107: what is observed of a state. -/
def State.observation (s : State) : Observation :=
  { phase := s.phase, ram := s.ram, rom := s.rom, latch := s.latch, trace := s.trace, responses := s.responses }

/-- Whether a response is a refusal. -/
def Response.isRefusal : Response → Bool
  | .data _ => false
  | .ack => false
  | .ready => false
  | .failed _ => false
  | .refused _ => true

/-- R91, D30: "A model marks a refusal and keeps the mark": a state whose responses hold a refusal. -/
abbrev State.Marked (s : State) : Prop := s.responses.any Response.isRefusal = true

/-- R90: "a FAILED state is a fault state that refutes every claim about a running machine"; a running machine is READY. -/
abbrev State.Running (s : State) : Prop := s.phase = .ready

/-- A run is safe as long as the machine is running and no request has been refused. -/
abbrev State.Safe (s : State) : Prop := s.Running ∧ ¬ s.Marked

/-- R30, R98: the window of each peripheral. -/
def Device.window (m : AddressMap) : Device → Window
  | .vic => m.vicWin
  | .cia1 => m.cia1Win
  | .cia2 => m.cia2Win
  | .sid => m.sidWin

/-- R74 (P4): the largest offset a device is ever passed. -/
def Device.maxOffset : Device → Byte
  | .vic => 0x7F
  | .cia1 => 0x0F
  | .cia2 => 0x0F
  | .sid => 0xFF

/-- R74 (P4), R98: every offset is masked, and the sound chip is reached for writes only. -/
def Event.Legal : Event → Prop
  | .prd d off _ => off ≤ d.maxOffset ∧ d ≠ .sid
  | .pwr d off _ => off ≤ d.maxOffset
  | .vbase _ => True
  | .hook => True

/-- An address among the `n` consecutive ones from `base`, which wrap modulo 2^16. -/
def Spans (base : Addr) (n : Nat) (a : Addr) : Prop := ∃ i, i < n ∧ a = base + BitVec.ofNat 16 i

/-- An address a payload writes (R83 to R85). -/
def payloadCovers (endPtrAddr : Addr) (a : Addr) : Payload → Prop
  | .monitor dest bytes => Spans dest bytes.length a
  | .program lo hi bytes => Spans (programStart lo hi) bytes.length a ∨ a = endPtrAddr ∨ a = nextAddr endPtrAddr

/-- R74 (P5): "a payload covers" an address. -/
def hookCovers (c : Config) (a : Addr) : Prop := ∃ p ∈ c.ramPayloads, payloadCovers c.endPtrAddr a p

/-- R74 (P5), (i) to (iii): a routed read of `a` right after a routed write of `v` there, under this mode table, returns `v`. -/
def Transparent (c : Config) (mode : ModeTable) (a : Addr) (v : Byte) : Prop :=
  (readClass c.map a = .default ∧ ¬ (c.map.sidWin.Has a ∧ mode.chario = .io) ∧
    ¬ (a = Parameters.triggerAddr ∧ v = Parameters.triggerValue ∧ hookCovers c Parameters.triggerAddr)) ∨
  (readClass c.map a = .basic ∧ mode.basic = .ram ∨ readClass c.map a = .kernal ∧ mode.kernal = .ram) ∨
  ((∃ d : Device, (d.window c.map).Has a) ∧ mode.chario = .ram ∨
    (c.map.cia1Win.Has a ∨ c.map.cia2Win.Has a) ∧ mode.chario = .rom)

/-- What every step keeps: both planes are in canonical form (R15), a READY machine was constructed from a well-formed configuration
with images of the right sizes (R7, R79), and every recorded event is legal (R74, R98). -/
structure State.Inv (s : State) : Prop where
  ramWf : Memory.wf ramFill s.ram
  romWf : Memory.wf romFill s.rom
  readyBuilt : s.phase = .ready → s.cfg.WellFormed ∧ s.cfg.SizesRight
  traceLegal : ∀ e ∈ s.trace, e.Legal

end Sys2Proof.Machine
end

