-- ==== Sys2Proof/Certificates/Slice0/Obligations.lean ====
section
/-! DEFINITION. The statements for the provers. Unless a docstring says otherwise a statement holds for every well-formed address map, not
only for the values R6 decides. -/

open Sys2Proof Sys2Proof.Machine

/-! ### The request port and the encoding -/

/-- R5, R42: the next request in the queue is answered, and its meaning is that of the decoded instruction. -/
def Obligations.StepAnswersDecodedRequest : Prop :=
  ∀ (s : State) (w : ReqWord) (rest : List ReqWord) (i : Instr), s.requests = w :: rest → decode w = .ok i →
    step s = exec i { s with requests := rest }

/-- R51, R52, R90, R91: a word that spells no request changes nothing but the queue it came from and the recorded response. In FAILED the
reason is FAILED (R90), in UNBUILT it is NOT_BUILT for a word that is no RESET (D32), and otherwise its encoding gives it. That such a
refusal is a next state is the model's reading (log 5), and that in READY an ill-formed RESET gets its encoding's reason and not
ALREADY_BUILT is the model's choice (log 6). -/
def Obligations.StepRefusesUndecodedWord : Prop :=
  ∀ (s : State) (w : ReqWord) (rest : List ReqWord) (r : RefusalReason), s.requests = w :: rest → decode w = .error r →
    step s = .next { s with requests := rest, responses := s.responses ++ [.refused (
      if s.phase = .failed then .failed
      else if s.phase = .unbuilt ∧ w.toNat / 2 ^ 32 ≠ 15 then .notBuilt
      else r)] }

/-- With no request to answer, a step changes nothing: the model's choice (log 4). -/
def Obligations.StepWithoutRequestIdles : Prop := ∀ s : State, s.requests = [] → step s = .next s

/-- R51, R52 (D2, D3): exactly the reserved opcodes and the nonzero reserved fields are refused, with these reasons. -/
def Obligations.ReservedEncodingsRefused : Prop :=
  ∀ w : ReqWord,
    let op := w.toNat / 2 ^ 32
    let addr := w.toNat / 2 ^ 16 % 2 ^ 16
    let data := w.toNat % 2 ^ 16
    (9 ≤ op ∧ op ≤ 14 → decode w = .error (.reservedOp (BitVec.ofNat 4 op))) ∧
    (op ∈ [0, 2, 4, 6, 8] → data ≠ 0 → decode w = .error .reservedField) ∧
    (op ∈ [1, 5] → data / 2 ^ 8 ≠ 0 → decode w = .error .reservedField) ∧
    (op = 15 → addr ≠ 0 ∨ data ≠ 0 → decode w = .error .reservedField) ∧
    (op ∈ [0, 2, 4, 6, 8] → data = 0 → ∃ i, decode w = .ok i) ∧
    (op ∈ [1, 5] → data / 2 ^ 8 = 0 → ∃ i, decode w = .ok i) ∧
    (op ∈ [3, 7] → ∃ i, decode w = .ok i) ∧
    (op = 15 → addr = 0 → data = 0 → decode w = .ok .reset)

/-- Decoding the word of a request gives it back, and encoding what a word decodes to gives the word back. -/
def Obligations.DecodeEncodeAgree : Prop :=
  (∀ i : Instr, decode (encode i) = .ok i) ∧ ∀ (w : ReqWord) (i : Instr), decode w = .ok i → encode i = w

/-- R47, R50: words of spec/95_test_vectors.md V-E1 to V-E10, V-E18 and V-E25 decode to the requests they stand for. -/
def Obligations.SpecWordsDecode : Prop :=
  decode 0x0A0000000 = .ok (.rdb 0xA000) ∧ decode 0x100010037 = .ok (.wrb 0x0001 0x37) ∧ decode 0x2FFFC0000 = .ok (.rdw 0xFFFC) ∧
  decode 0x3C0001234 = .ok (.wrw 0xC000 0x1234) ∧ decode 0x400010000 = .ok (.rdbn 0x0001) ∧ decode 0x5013900FF = .ok (.wrbn 0x0139 0xFF) ∧
  decode 0x6002D0000 = .ok (.rdwn 0x002D) ∧ decode 0x7002D0900 = .ok (.wrwn 0x002D 0x0900) ∧ decode 0x810080000 = .ok (.vrd 0x1008) ∧
  decode 0xF00000000 = .ok .reset ∧ decode 0x8D0080000 = .ok (.vrd 0xD008) ∧ decode 0x1D020000E = .ok (.wrb 0xD020 0x0E)

/-- R53: the text of every request assembles to that request. -/
def Obligations.AssembleDisassembleAgree : Prop := ∀ i : Instr, assemble (disassemble i) = some i

/-- R54: the three pseudo-requests expand as the table says, BANK for every value, with the words of V-E26. -/
def Obligations.PseudoRequestsExpand : Prop :=
  (∀ v : Byte, assemble ("BANK #$".toList ++ asmByteText v) = some (.wrb Parameters.r6.ctrlAddr v)) ∧
  assemble "TRIGGER".toList = some (.wrb Parameters.triggerAddr Parameters.triggerValue) ∧
  assemble "PEEKLATCH".toList = some (.rdbn Parameters.r6.ctrlAddr) ∧
  (assemble "BANK #$05".toList).map encode = some 0x100010005 ∧ (assemble "TRIGGER".toList).map encode = some 0x1013900FF ∧
  (assemble "PEEKLATCH".toList).map encode = some 0x400010000 ∧ (assemble "cpu: WRB $D020, #$0E ; border".toList).map encode = some 0x1D020000E

/-! ### The address map -/

/-- R7: "The values in rule R6 are well-formed." (R7's conditions are D26.) -/
def Obligations.R6ValuesWellFormed : Prop := Parameters.r6.WellFormed

/-- R30, with R33 and R34: the class of every address under R6's values (D5, D8), range by range. -/
def Obligations.AddressMapRanges : Prop :=
  ∀ a : Addr,
    let n := a.toNat
    let decodes := fun (r w : RegionClass) => readClass Parameters.r6 a = r ∧ writeClass Parameters.r6 a = w
    (n = 0x0001 → decodes .default .control) ∧
    (n ≤ 0x9FFF → n ≠ 0x0001 → decodes .default .default) ∧
    (0xA000 ≤ n ∧ n ≤ 0xBFFF → decodes .basic .default) ∧
    (0xC000 ≤ n ∧ n ≤ 0xCFFF → decodes .default .default) ∧
    (0xD000 ≤ n ∧ n ≤ 0xD3FF → decodes (.peripheral .vic) (.peripheral .vic)) ∧
    (0xD400 ≤ n ∧ n ≤ 0xD7FF → decodes .default (.peripheral .sid)) ∧
    (0xD800 ≤ n ∧ n ≤ 0xDBFF → decodes .default .default) ∧
    (0xDC00 ≤ n ∧ n ≤ 0xDCFF → decodes (.peripheral .cia1) (.peripheral .cia1)) ∧
    (0xDD00 ≤ n ∧ n ≤ 0xDDFF → decodes (.peripheral .cia2) (.peripheral .cia2)) ∧
    (0xDE00 ≤ n ∧ n ≤ 0xDFFF → decodes .default .default) ∧
    (0xE000 ≤ n → decodes .kernal .default)

/-! ### The bank latch -/

/-- R60, R61: the mode equations, for any bit positions. -/
def Obligations.ModeEquations : Prop :=
  ∀ (m : AddressMap) (v : Byte),
    let h := v.getLsbD m.hiramBit = true
    let l := v.getLsbD m.loramBit = true
    let c := v.getLsbD m.charenBit = true
    (modeOf m v).kernal = (if h then .rom else .ram) ∧
    (modeOf m v).basic = (if l ∧ h then .rom else .ram) ∧
    (modeOf m v).chario = (if c ∧ (l ∨ h) then .io else if c ∧ ¬ l ∧ ¬ h then .ram else .rom)

/-- R62 with R6's bit positions (D6): the eight rows, whatever bits 3-7 hold (D29). -/
def Obligations.ModeTableEightCases : Prop :=
  ∀ v : Byte,
    (v.extractLsb' 0 3 = 0 → modeOf Parameters.r6 v = ⟨.ram, .ram, .rom⟩) ∧
    (v.extractLsb' 0 3 = 4 → modeOf Parameters.r6 v = ⟨.ram, .ram, .ram⟩) ∧
    (v.extractLsb' 0 3 = 1 → modeOf Parameters.r6 v = ⟨.ram, .ram, .rom⟩) ∧
    (v.extractLsb' 0 3 = 5 → modeOf Parameters.r6 v = ⟨.ram, .ram, .io⟩) ∧
    (v.extractLsb' 0 3 = 2 → modeOf Parameters.r6 v = ⟨.rom, .ram, .rom⟩) ∧
    (v.extractLsb' 0 3 = 6 → modeOf Parameters.r6 v = ⟨.rom, .ram, .io⟩) ∧
    (v.extractLsb' 0 3 = 3 → modeOf Parameters.r6 v = ⟨.rom, .rom, .rom⟩) ∧
    (v.extractLsb' 0 3 = 7 → modeOf Parameters.r6 v = ⟨.rom, .rom, .io⟩)

/-- R19: a routed byte write to CTRL_ADDR loads the latch and the mode table and stores the byte verbatim; everything else is as it was. -/
def Obligations.ControlWriteLoadsLatch : Prop :=
  ∀ (s : State) (v : Byte), s.phase = .ready →
    ∃ t, exec (.wrb s.cfg.map.ctrlAddr v) s = .next t ∧
      t = { s with latch := v, ram := t.ram, responses := s.responses ++ [.ack] } ∧
      t.mode = modeOf s.cfg.map v ∧ ramRead t s.cfg.map.ctrlAddr = v ∧
      ∀ x, x ≠ s.cfg.map.ctrlAddr → ramRead t x = ramRead s x

/-- R20: a routed read of CTRL_ADDR returns the RAM byte there, as the no-I/O read does, and right after set_config(v) that byte is v. -/
def Obligations.ControlReadReturnsRam : Prop :=
  ∀ s : State, s.cfg.map.WellFormed → s.phase = .ready →
    readClass s.cfg.map s.cfg.map.ctrlAddr = .default ∧
    exec (.rdb s.cfg.map.ctrlAddr) s =
      .next { s with responses := s.responses ++ [.data ((ramRead s s.cfg.map.ctrlAddr).setWidth 16)] } ∧
    exec (.rdbn s.cfg.map.ctrlAddr) s =
      .next { s with responses := s.responses ++ [.data ((ramRead s s.cfg.map.ctrlAddr).setWidth 16)] } ∧
    ∀ v, ramRead (setConfig v s) s.cfg.map.ctrlAddr = v

/-- R26 (a): after a no-I/O write to CTRL_ADDR a routed read there returns the byte written while MODE is still that of the latch. -/
def Obligations.NoIoControlWriteKeepsMode : Prop :=
  ∀ (s : State) (x : Byte), s.cfg.map.WellFormed → s.phase = .ready →
    ∃ t u, exec (.wrbn s.cfg.map.ctrlAddr x) s = .next t ∧ exec (.rdb s.cfg.map.ctrlAddr) t = .next u ∧
      t.latch = s.latch ∧ t.mode = s.mode ∧ u.mode = s.mode ∧ u.responses = s.responses ++ [.ack, .data (x.setWidth 16)]

/-- R42, R63 (d), R65: right after a control write of v, a read of a window that a slot governs shows what v selects: the BASIC and KERNAL
windows a plane, and the video, CIA1 and CIA2 windows the device where v selects IO, else RAM, or ROM in the video window where v has no C.
A device's answer is the free value `nextDevByte` (D14, log 8). -/
def Obligations.ControlWriteGovernsNextRead : Prop :=
  ∀ (s : State) (v : Byte) (a : Addr), s.cfg.map.WellFormed → s.phase = .ready →
    ∃ t, exec (.wrb s.cfg.map.ctrlAddr v) s = .next t ∧
      let h := latchH s.cfg.map v
      let l := latchL s.cfg.map v
      let c := latchC s.cfg.map v
      let answer := fun (b : Byte) => ({ t with responses := t.responses ++ [.data (b.setWidth 16)] } : State)
      (s.cfg.map.basicWin.Has a → exec (.rdb a) t = .next (answer (if h && l then romRead s a else ramRead s a))) ∧
      (s.cfg.map.kernalWin.Has a → exec (.rdb a) t = .next (answer (if h then romRead s a else ramRead s a))) ∧
      ∀ d : Device, d ≠ .sid → (d.window s.cfg.map).Has a →
        exec (.rdb a) t = .next (
          if c && (l || h) then
            { answer (nextDevByte t) with trace := t.trace ++ [.prd d (devOffset d a) (nextDevByte t)],
                                          devAnswers := t.devAnswers.tail, draws := t.draws + 1 }
          else answer (if d = .vic && !c then romRead s a else ramRead s a))

/-! ### The planes and the no-I/O requests -/

/-- R56: RamWrite changes exactly one byte of RAM and no other state. -/
def Obligations.RamWriteChangesOneByte : Prop :=
  ∀ (s : State) (a : Addr) (v : Byte),
    ramRead (ramWrite a v s) a = v ∧ (∀ x, x ≠ a → ramRead (ramWrite a v s) x = ramRead s x) ∧
    ramWrite a v s = { s with ram := (ramWrite a v s).ram }

/-- R70: WRBN stores one byte to RAM at any address and has no other effect: no set_config, no hook, no event. -/
def Obligations.WrbnStoresOneRamByte : Prop :=
  ∀ (s : State) (a : Addr) (v : Byte), s.phase = .ready →
    ∃ t, exec (.wrbn a v) s = .next t ∧ t = { s with ram := t.ram, responses := s.responses ++ [.ack] } ∧
      ramRead t a = v ∧ ∀ x, x ≠ a → ramRead t x = ramRead s x

/-- R71: RDBN returns the RAM byte whatever MODE holds; no event, no state change. -/
def Obligations.RdbnReturnsRam : Prop :=
  ∀ (s : State) (a : Addr), s.phase = .ready →
    exec (.rdbn a) s = .next { s with responses := s.responses ++ [.data ((ramRead s a).setWidth 16)] }

/-- R72 (the wrap is D11): WRWN stores the low byte at a and the high byte at a + 1, to RAM only. -/
def Obligations.WrwnStoresTwoRamBytes : Prop :=
  ∀ (s : State) (a : Addr) (v : Word), s.phase = .ready →
    ∃ t, exec (.wrwn a v) s = .next t ∧ t = { s with ram := t.ram, responses := s.responses ++ [.ack] } ∧
      ramRead t a = v.extractLsb' 0 8 ∧ ramRead t (a + 1) = v.extractLsb' 8 8 ∧
      ∀ x, x ≠ a → x ≠ a + 1 → ramRead t x = ramRead s x

/-- R73: RDWN returns `RamRead(a +16 1) :: RamRead(a)`; no event, no state change. -/
def Obligations.RdwnReturnsRamWord : Prop :=
  ∀ (s : State) (a : Addr), s.phase = .ready →
    exec (.rdwn a) s = .next { s with responses := s.responses ++ [.data (ramRead s (a + 1) ++ ramRead s a)] }

/-! ### The routed requests -/

/-- R67: what RDB answers at every address, in every mode. A peripheral's answer is the free value `nextDevByte` (D14): it is whatever
stands ready in the state, or the opaque value of log 8. -/
def Obligations.RoutedReadByClass : Prop :=
  ∀ (s : State) (a : Addr), s.phase = .ready →
    let m := s.cfg.map
    let mode := s.mode
    let answer := fun (b : Byte) => ({ s with responses := s.responses ++ [.data (b.setWidth 16)] } : State)
    let device := fun (d : Device) (off : Byte) =>
      ({ s with trace := s.trace ++ [.prd d off (nextDevByte s)], devAnswers := s.devAnswers.tail, draws := s.draws + 1,
                responses := s.responses ++ [.data ((nextDevByte s).setWidth 16)] } : State)
    exec (.rdb a) s = .next (
      if m.vicWin.Has a then
        match mode.chario with
        | .io => device .vic ((a &&& 0x7F).setWidth 8)
        | .rom => answer (romRead s a)
        | .ram => answer (ramRead s a)
      else if m.cia1Win.Has a then
        if mode.chario = .io then device .cia1 ((a &&& 0x0F).setWidth 8) else answer (ramRead s a)
      else if m.cia2Win.Has a then
        if mode.chario = .io then device .cia2 ((a &&& 0x0F).setWidth 8) else answer (ramRead s a)
      else if m.basicWin.Has a then answer (if mode.basic = .rom then romRead s a else ramRead s a)
      else if m.kernalWin.Has a then answer (if mode.kernal = .rom then romRead s a else ramRead s a)
      else answer (ramRead s a))

/-- R66: what WRB does at every address, in every mode. That the trigger's store comes before the hook is D19. -/
def Obligations.RoutedWriteByClass : Prop :=
  ∀ (s : State) (a : Addr) (v : Byte), s.phase = .ready →
    let m := s.cfg.map
    let io := s.mode.chario = .io
    let acked : State := { s with responses := s.responses ++ [.ack] }
    let stored := Memory.write ramFill s.ram a.toNat v
    let device := fun (d : Device) (off : Byte) => ({ acked with trace := s.trace ++ [.pwr d off v] } : State)
    exec (.wrb a v) s = .next (
      if a = m.ctrlAddr then { acked with latch := v, ram := stored }
      else if m.vicWin.Has a then if io then device .vic ((a &&& 0x7F).setWidth 8) else { acked with ram := stored }
      else if m.cia1Win.Has a then if io then device .cia1 ((a &&& 0x0F).setWidth 8) else { acked with ram := stored }
      else if m.cia2Win.Has a then if io then device .cia2 ((a &&& 0x0F).setWidth 8) else { acked with ram := stored }
      else if m.sidWin.Has a then if io then device .sid ((a &&& 0xFF).setWidth 8) else { acked with ram := stored }
      else if a = 0x0139 ∧ v = 0xFF then { acked with ram := patchRam s.cfg stored, trace := s.trace ++ [.hook] }
      else { acked with ram := stored })

/-- R74 (P1, P2), R66: the frame of WRB. It never changes ROM, the configuration, the phase or the environment's inputs; it changes the
latch only at CTRL_ADDR; unless it is the trigger store it changes no RAM byte but the one at its address; and it adds nothing to the trace,
one PWR of a masked offset in IO mode at a window of that device, or HOOK. -/
def Obligations.RoutedWriteFrame : Prop :=
  ∀ (s : State) (a : Addr) (v : Byte), s.phase = .ready →
    ∃ t, exec (.wrb a v) s = .next t ∧
      t = { s with ram := t.ram, latch := t.latch, trace := t.trace, responses := s.responses ++ [.ack] } ∧
      (a ≠ s.cfg.map.ctrlAddr → t.latch = s.latch) ∧
      (¬ (a = 0x0139 ∧ v = 0xFF) → ∀ x, x ≠ a → ramRead t x = ramRead s x) ∧
      (t.trace = s.trace ∨
        (∃ (d : Device) (off : Byte), t.trace = s.trace ++ [.pwr d off v] ∧ t.ram = s.ram ∧ s.mode.chario = .io ∧
          (d.window s.cfg.map).Has a ∧ off ≤ d.maxOffset) ∨
        (t.trace = s.trace ++ [.hook] ∧ a = 0x0139 ∧ v = 0xFF))

/-- R67 (f), R74 (P1, P3): the frame of the reads RDB, RDW, RDBN, RDWN and VRD. They answer, and change no RAM, ROM, latch, phase or
configuration; RDBN and RDWN add no event, and RDB at most one. -/
def Obligations.ReadFrame : Prop :=
  ∀ (s : State) (a : Addr) (i : Instr), s.phase = .ready → i ∈ [.rdb a, .rdw a, .rdbn a, .rdwn a, .vrd a] →
    ∃ (t : State) (v : Word) (es : List Event), exec i s = .next t ∧
      t = { s with trace := s.trace ++ es, devAnswers := t.devAnswers, vicBases := t.vicBases, draws := t.draws,
                   responses := s.responses ++ [.data v] } ∧
      ((i = .rdbn a ∨ i = .rdwn a) → es = []) ∧ (i = .rdb a → es.length ≤ 1)

/-- R34, R67 (a), C12: a read of the sound chip's window returns RAM in every mode and never reaches the chip. -/
def Obligations.SoundWindowReadsRam : Prop :=
  ∀ (s : State) (a : Addr), s.cfg.map.WellFormed → s.phase = .ready → s.cfg.map.sidWin.Has a →
    exec (.rdb a) s = .next { s with responses := s.responses ++ [.data ((ramRead s a).setWidth 16)] }

/-- R36: a routed write under ROM stores to RAM whatever the mode, and a routed read in ROM mode shows the ROM byte; outside the five
read-switched windows a read returns RAM; in IO mode a write to the sound chip's window goes to the chip and does not reach RAM. -/
def Obligations.WriteUnderRomReachesRam : Prop :=
  ∀ (s : State) (a : Addr) (v : Byte), s.cfg.map.WellFormed → s.phase = .ready →
    (s.cfg.map.basicWin.Has a ∨ s.cfg.map.kernalWin.Has a ∨ (s.cfg.map.vicWin.Has a ∧ s.mode.chario = .rom) →
      ∃ t, exec (.wrb a v) s = .next t ∧ ramRead t a = v ∧ t.trace = s.trace ∧ t.latch = s.latch ∧
        ((s.cfg.map.basicWin.Has a → s.mode.basic = .rom) → (s.cfg.map.kernalWin.Has a → s.mode.kernal = .rom) →
          exec (.rdb a) t = .next { t with responses := t.responses ++ [.data ((romRead s a).setWidth 16)] })) ∧
    (¬ s.cfg.map.vicWin.Has a → ¬ s.cfg.map.cia1Win.Has a → ¬ s.cfg.map.cia2Win.Has a → ¬ s.cfg.map.basicWin.Has a →
      ¬ s.cfg.map.kernalWin.Has a →
        exec (.rdb a) s = .next { s with responses := s.responses ++ [.data ((ramRead s a).setWidth 16)] }) ∧
    (s.cfg.map.sidWin.Has a → s.mode.chario = .io →
      ∃ t, exec (.wrb a v) s = .next t ∧ t.ram = s.ram ∧ t.trace = s.trace ++ [.pwr .sid (devOffset .sid a) v])

/-- R68 (R38, wrap D11): WRW is the low byte's WRB and then, under the state that one left, the high byte's, with one acknowledgement. -/
def Obligations.WordWriteIsTwoByteWrites : Prop :=
  ∀ (s : State) (a : Addr) (v : Word), s.phase = .ready →
    ∃ t u, exec (.wrb a (v.extractLsb' 0 8)) s = .next t ∧ exec (.wrb (a + 1) (v.extractLsb' 8 8)) t = .next u ∧
      exec (.wrw a v) s = .next { u with responses := s.responses ++ [.ack] }

/-- R69 (R38, wrap D11): RDW is the low byte's RDB and then the high byte's, and it returns `hi :: lo`. It compares two runs from one
state; that the devices answer both alike holds in the model because the answers are drawn from that state, and where none stands ready
from the opaque function of log 8: the model's choice. -/
def Obligations.WordReadIsTwoByteReads : Prop :=
  ∀ (s : State) (a : Addr), s.phase = .ready →
    ∃ (t u : State) (lo hi : Byte), exec (.rdb a) s = .next t ∧ t.responses = s.responses ++ [.data (lo.setWidth 16)] ∧
      exec (.rdb (a + 1)) t = .next u ∧ u.responses = t.responses ++ [.data (hi.setWidth 16)] ∧
      exec (.rdw a) s = .next { u with responses := s.responses ++ [.data (hi ++ lo)] }

/-- R68 (b), (c): with R6's values, a word write that reaches CTRL_ADDR with either byte loads the latch with that byte, and the other
byte lands in RAM. -/
def Obligations.WordWriteAcrossControl : Prop :=
  ∀ (s : State) (hi lo : Byte), s.cfg.map = Parameters.r6 → s.phase = .ready →
    (∃ t, exec (.wrw 0x0000 (hi ++ lo)) s = .next t ∧ t.latch = hi ∧ t.trace = s.trace ∧
      ramRead t 0x0000 = lo ∧ ramRead t 0x0001 = hi ∧ ∀ x, x ≠ 0x0000 → x ≠ 0x0001 → ramRead t x = ramRead s x) ∧
    (∃ t, exec (.wrw 0x0001 (hi ++ lo)) s = .next t ∧ t.latch = lo ∧ t.trace = s.trace ∧
      ramRead t 0x0001 = lo ∧ ramRead t 0x0002 = hi ∧ ∀ x, x ≠ 0x0001 → x ≠ 0x0002 → ramRead t x = ramRead s x)

/-- R68 (e), R38: with R6's values, a word write whose low byte is the trigger store runs the hook before its high byte is stored. -/
def Obligations.WordTriggerRunsHookBeforeHighByte : Prop :=
  ∀ (s : State) (hi : Byte), s.cfg.map = Parameters.r6 → s.phase = .ready →
    ∃ t, exec (.wrw 0x0139 (hi ++ 0xFF#8)) s = .next t ∧ t.trace = s.trace ++ [.hook] ∧ t.latch = s.latch ∧ ramRead t 0x013A = hi ∧
      ∀ x, x ≠ 0x013A → ramRead t x = Memory.read ramFill (patchRam s.cfg (Memory.write ramFill s.ram 0x0139 0xFF)) x.toNat

/-- R74 (P5): write-read transparency, where one of (i), (ii), (iii) holds. -/
def Obligations.WriteReadTransparency : Prop :=
  ∀ (s : State) (a : Addr) (v : Byte), s.cfg.map.WellFormed → s.phase = .ready → Transparent s.cfg s.mode a v →
    ∃ t u, exec (.wrb a v) s = .next t ∧ exec (.rdb a) t = .next u ∧
      u.responses = s.responses ++ [.ack, .data (v.setWidth 16)]

/-- R74 (P6), with R6's values and the one case it leaves out excluded (log 14): the word round trip. -/
def Obligations.WordRoundTrip : Prop :=
  ∀ (s t : State) (a : Addr) (v : Word), s.cfg.map = Parameters.r6 → s.phase = .ready → exec (.wrw a v) s = .next t →
    Transparent s.cfg t.mode a (v.extractLsb' 0 8) → Transparent s.cfg t.mode (a + 1) (v.extractLsb' 8 8) →
    ¬ (a = 0x0138 ∧ v.extractLsb' 8 8 = 0xFF#8 ∧ hookCovers s.cfg 0x0138) →
    ∃ u, exec (.rdw a) t = .next u ∧ u.responses = t.responses ++ [.data v]

/-- R74 (P6) as the spec words it, without that exclusion. It fails: R68 (d) with a payload that covers 0x0138 refutes it (log 14). -/
def Obligations.WordRoundTripAsWorded : Prop :=
  ∀ (s t : State) (a : Addr) (v : Word), s.cfg.map = Parameters.r6 → s.phase = .ready → exec (.wrw a v) s = .next t →
    Transparent s.cfg t.mode a (v.extractLsb' 0 8) → Transparent s.cfg t.mode (a + 1) (v.extractLsb' 8 8) →
    ∃ u, exec (.rdw a) t = .next u ∧ u.responses = t.responses ++ [.data v]

/-! ### The RAM-patch hook -/

/-- R66 (e), R24: a byte write records HOOK exactly for the value 0xFF at the address 0x0139. -/
def Obligations.HookOnlyAtTrigger : Prop :=
  ∀ (s : State) (a : Addr) (v : Byte), s.cfg.map.WellFormed → s.phase = .ready →
    ∃ t, exec (.wrb a v) s = .next t ∧ (t.trace = s.trace ++ [.hook] ↔ a = 0x0139 ∧ v = 0xFF)

/-- R82, R83: the trigger store copies a monitor image, wherever it stands in RAM_PAYLOADS, to its destination: in list order, so a byte
of it stays where no later payload covers its address (and, in an image longer than a plane, no later byte of it). What no payload covers
is as it was, but the trigger address, which keeps the value stored. -/
def Obligations.TriggerCopiesMonitor : Prop :=
  ∀ (s : State) (pre post : List Payload) (dest : Addr) (bytes : List Byte), s.cfg.map.WellFormed → s.phase = .ready →
    s.cfg.ramPayloads = pre ++ .monitor dest bytes :: post →
    ∃ t, exec (.wrb 0x0139 0xFF) s = .next t ∧
      t = { s with ram := t.ram, trace := s.trace ++ [.hook], responses := s.responses ++ [.ack] } ∧
      (∀ (i : Nat) (h : i < bytes.length), bytes.length ≤ i + 65536 →
        (∀ p ∈ post, ¬ payloadCovers s.cfg.endPtrAddr (dest + BitVec.ofNat 16 i) p) → ramRead t (dest + BitVec.ofNat 16 i) = bytes[i]) ∧
      (¬ hookCovers s.cfg 0x0139 → ramRead t 0x0139 = 0xFF) ∧
      ∀ x, ¬ hookCovers s.cfg x → x ≠ 0x0139 → ramRead t x = ramRead s x

/-- R82, R84, R85: the trigger store copies a program image, wherever it stands in RAM_PAYLOADS, to the load address of its header and then
writes the end-of-program pointer, little-endian, which wins where the image covers it; in list order, so what it writes stays where no
later payload covers the address. The pointer's value, one past the last byte, is D21. -/
def Obligations.TriggerCopiesProgram : Prop :=
  ∀ (s : State) (pre post : List Payload) (lo hi : Byte) (bytes : List Byte), s.cfg.map.WellFormed → s.phase = .ready →
    s.cfg.ramPayloads = pre ++ .program lo hi bytes :: post →
    let start : Addr := hi ++ lo
    let stop : Addr := start + BitVec.ofNat 16 bytes.length
    let ptr := s.cfg.endPtrAddr
    let kept := fun (x : Addr) => ∀ p ∈ post, ¬ payloadCovers ptr x p
    ∃ t, exec (.wrb 0x0139 0xFF) s = .next t ∧
      t = { s with ram := t.ram, trace := s.trace ++ [.hook], responses := s.responses ++ [.ack] } ∧
      (kept ptr → ramRead t ptr = stop.extractLsb' 0 8) ∧ (kept (ptr + 1) → ramRead t (ptr + 1) = stop.extractLsb' 8 8) ∧
      (∀ (i : Nat) (h : i < bytes.length), bytes.length ≤ i + 65536 → start + BitVec.ofNat 16 i ≠ ptr →
        start + BitVec.ofNat 16 i ≠ ptr + 1 → kept (start + BitVec.ofNat 16 i) → ramRead t (start + BitVec.ofNat 16 i) = bytes[i]) ∧
      (¬ hookCovers s.cfg 0x0139 → ramRead t 0x0139 = 0xFF) ∧
      ∀ x, ¬ hookCovers s.cfg x → x ≠ 0x0139 → ramRead t x = ramRead s x

/-- R86: two trigger stores leave RAM as one does, record HOOK twice, and leave every address that no payload covers, but the trigger's
own, untouched; for any payload list. -/
def Obligations.TriggerTwiceAsOnce : Prop :=
  ∀ s : State, s.cfg.map.WellFormed → s.phase = .ready →
    ∃ t u, exec (.wrb 0x0139 0xFF) s = .next t ∧ exec (.wrb 0x0139 0xFF) t = .next u ∧
      t.trace = s.trace ++ [.hook] ∧ u.trace = s.trace ++ [.hook, .hook] ∧
      (∀ x, ramRead u x = ramRead t x) ∧ (Memory.wf ramFill s.ram → u.ram = t.ram) ∧
      ∀ x, ¬ hookCovers s.cfg x → x ≠ 0x0139 → ramRead t x = ramRead s x

/-! ### The video view -/

/-- R75, R76 (D10, D12): what VRD answers and records, for every local address; the base is the free value `nextVicBase` (D13, log 9). -/
def Obligations.VideoReadShows : Prop :=
  ∀ (s : State) (l : Addr), s.phase = .ready →
    let base := nextVicBase s
    let full := base + (l &&& 0x3FFF)
    let byte := if (0x1000 ≤ full ∧ full ≤ 0x1FFF) ∨ (0x9000 ≤ full ∧ full ≤ 0x9FFF) then romRead s (s.cfg.map.charBase + (full &&& 0x0FFF))
      else ramRead s full
    exec (.vrd l) s = .next { s with trace := s.trace ++ [.vbase base], vicBases := s.vicBases.tail, draws := s.draws + 1,
                                     responses := s.responses ++ [.data (byte.setWidth 16)] }

/-- R77: VRD does not depend on the latch, calls nothing but VicBase(), writes neither plane, and outside the override windows it reads RAM
as the no-I/O path does. That it calls VicBase() once is D13 (R75). It compares two runs; that both draw the same base holds in the model
because the base is drawn from the state, and where none stands ready from the opaque function of log 9: the model's choice. -/
def Obligations.VideoReadIndependentOfLatch : Prop :=
  ∀ (s : State) (l : Addr) (v : Byte), s.phase = .ready →
    ∃ t, exec (.vrd l) s = .next t ∧ exec (.vrd l) { s with latch := v } = .next { t with latch := v } ∧
      t.ram = s.ram ∧ t.rom = s.rom ∧ t.latch = s.latch ∧ t.trace = s.trace ++ [.vbase (nextVicBase s)] ∧ t.devAnswers = s.devAnswers ∧
      (¬ VicOverride (vicFullAddr (nextVicBase s) l) →
        t.responses = s.responses ++ [.data ((ramRead s (vicFullAddr (nextVicBase s) l)).setWidth 16)])

/-- R46, R75 (e): with a base of 0x4000 or 0xC000 every video read shows RAM, at the base plus the low 14 bits of the local address. The
base answered is the free value `nextVicBase` (D13, log 9). -/
def Obligations.VideoReadFromHighBanksIsRam : Prop :=
  ∀ (s : State) (l : Addr) (base : Word), s.phase = .ready → nextVicBase s = base → base = 0x4000 ∨ base = 0xC000 →
    ∃ t, exec (.vrd l) s = .next t ∧
      t.responses = s.responses ++ [.data ((ramRead s (base + BitVec.ofNat 16 (l.toNat % 16384))).setWidth 16)]

/-! ### Construction, the fault and the refusals -/

/-- R78, R27: RESET of an unbuilt machine with a well-formed configuration and images of the right sizes. The fill phase and the order are
D15 and D16. -/
def Obligations.ResetBuildsMachine : Prop :=
  ∀ s : State, s.phase = .unbuilt → s.cfg.WellFormed → s.cfg.SizesRight →
    ∃ t, exec .reset s = .next t ∧
      t = { s with phase := .ready, ram := t.ram, rom := t.rom, latch := s.cfg.map.defaultLatch, trace := [],
                   responses := s.responses ++ [.ready] } ∧
      ramRead t s.cfg.map.ctrlAddr = s.cfg.map.defaultLatch ∧
      (∀ a, a ≠ s.cfg.map.ctrlAddr → ramRead t a = if a.toNat % 2 = 0 then 0x00 else 0xFF) ∧
      (s.cfg.map = Parameters.r6 → t.mode = ⟨.rom, .rom, .io⟩)

/-- R80, R27: with R6's bases and no patches, the ROM plane after construction holds each image at its base and zero elsewhere. -/
def Obligations.ResetLoadsImages : Prop :=
  ∀ s : State, s.phase = .unbuilt → s.cfg.WellFormed → s.cfg.SizesRight → s.cfg.map = Parameters.r6 → s.cfg.romPatches = [] →
    ∃ t, exec .reset s = .next t ∧
      (∀ (i : Nat) (h : i < s.cfg.basicImg.length), romRead t (BitVec.ofNat 16 (0xA000 + i)) = s.cfg.basicImg[i]) ∧
      (∀ (i : Nat) (h : i < s.cfg.charImg.length), romRead t (BitVec.ofNat 16 (0xD000 + i)) = s.cfg.charImg[i]) ∧
      (∀ (i : Nat) (h : i < s.cfg.kernalImg.length), romRead t (BitVec.ofNat 16 (0xE000 + i)) = s.cfg.kernalImg[i]) ∧
      ∀ a : Addr, a.toNat < 0xA000 ∨ (0xC000 ≤ a.toNat ∧ a.toNat < 0xD000) → romRead t a = 0x00

/-- R81: the patches are laid over the loaded images in list order: at an offset the last entry that names it wins, and an offset none
names holds what the unpatched machine holds there. -/
def Obligations.ResetAppliesPatches : Prop :=
  ∀ s : State, s.phase = .unbuilt → s.cfg.WellFormed → s.cfg.SizesRight →
    ∃ t u, exec .reset s = .next t ∧ exec .reset { s with cfg := { s.cfg with romPatches := [] } } = .next u ∧
      (∀ (pre post : List (Addr × Byte)) (off : Addr) (b : Byte), s.cfg.romPatches = pre ++ (off, b) :: post →
        (∀ p ∈ post, p.1 ≠ off) → romRead t off = b) ∧
      ∀ a : Addr, (∀ p ∈ s.cfg.romPatches, p.1 ≠ a) → romRead t a = romRead u a

/-- R89, R90: with an image of the wrong size RESET leaves the machine FAILED and reports an image of the wrong size and the size it had.
That the trace is empty is R78's order, which log 15 keeps. That the report is data of a next state is the model's reading (log 5); which
image it names when several are wrong is log 10. -/
def Obligations.ResetWithWrongSizeFails : Prop :=
  ∀ s : State, s.phase = .unbuilt → s.cfg.WellFormed → ¬ s.cfg.SizesRight →
    ∃ (t : State) (image : RomImage) (size : Nat), exec .reset s = .next t ∧ t.phase = .failed ∧ t.cfg = s.cfg ∧ t.trace = [] ∧
      t.responses = s.responses ++ [.failed (.romImageSize image size)] ∧
      (match image with
        | .basic => size = s.cfg.basicImg.length ∧ size ≠ 8192
        | .char => size = s.cfg.charImg.length ∧ size ≠ 4096
        | .kernal => size = s.cfg.kernalImg.length ∧ size ≠ 8192)

/-- R7: the model refuses a configuration that is not well-formed. That R82's "at most one program image" is one of its conditions is log
11, and that it is RESET that refuses it is log 7: the model's choices. -/
def Obligations.IllFormedConfigurationRefused : Prop :=
  ∀ s : State, s.phase = .unbuilt → ¬ s.cfg.WellFormed → exec .reset s = .refused .illFormedConfig

/-- R91: the refusals of the lifecycle, each of which changes nothing but the recorded response. -/
def Obligations.LifecycleRefusals : Prop :=
  ∀ (s : State) (i : Instr),
    let refusedFor := fun (r : RefusalReason) => Host.Outcome.next (ρ := Refusal) (φ := Fault) { s with responses := s.responses ++ [.refused r] }
    (s.phase = .unbuilt → i ≠ .reset → exec i s = refusedFor .notBuilt) ∧
    (s.phase = .ready → exec .reset s = refusedFor .alreadyBuilt) ∧
    (s.phase = .failed → exec i s = refusedFor .failed)

/-- R90: FAILED is final: every step from it answers, and changes nothing but the queue and the recorded responses, and every request is
refused with reason FAILED, whatever its word. That a refusal is a next state is log 5, and that a step without a request idles is log 4:
the model's choices. -/
def Obligations.FailedIsFinal : Prop :=
  ∀ s : State, s.phase = .failed →
    ∃ t, step s = .next t ∧ t = { s with requests := s.requests.tail, responses := t.responses } ∧
      (s.requests ≠ [] → t.responses = s.responses ++ [.refused .failed])

/-! ### The whole machine -/

/-- R88: in phase READY every bus request succeeds, for any address, data, mode and latch value: it answers with data or an
acknowledgement, and the machine stays READY. -/
def Obligations.SteadyStateAlwaysSucceeds : Prop :=
  ∀ (s : State) (i : Instr), s.phase = .ready → i ≠ .reset →
    ∃ (t : State) (r : Response), exec i s = .next t ∧ t.phase = .ready ∧ t.responses = s.responses ++ [r] ∧
      (r = .ack ∨ ∃ v, r = .data v)

/-- R25, R29, R74 (P1), R103, R24: a step of a READY machine keeps the phase, the configuration and the ROM plane, and only ever adds to the
trace and to the responses. That it answers a next state for a refused word (R91) is log 5, and for an empty queue log 4: the model's
choices. -/
def Obligations.ReadyStepKeepsRomAndConfig : Prop :=
  ∀ s : State, s.phase = .ready →
    ∃ (t : State) (es : List Event) (rs : List Response), step s = .next t ∧ t.phase = .ready ∧ t.cfg = s.cfg ∧ t.rom = s.rom ∧
      t.trace = s.trace ++ es ∧ t.responses = s.responses ++ rs ∧ t.requests = s.requests.tail

/-- R64 (2), R74 (P2): a step of a READY machine changes the latch only through a routed write one byte of which goes to CTRL_ADDR, and
then to that byte. -/
def Obligations.LatchChangesOnlyThroughControlWrite : Prop :=
  ∀ (s t : State), s.phase = .ready → step s = .next t → t.latch ≠ s.latch →
    ∃ (w : ReqWord) (rest : List ReqWord), s.requests = w :: rest ∧
      ((∃ v, decode w = .ok (.wrb s.cfg.map.ctrlAddr v) ∧ t.latch = v) ∨
       (∃ a v, decode w = .ok (.wrw a v) ∧
         ((a = s.cfg.map.ctrlAddr ∧ t.latch = v.extractLsb' 0 8) ∨ (a + 1 = s.cfg.map.ctrlAddr ∧ t.latch = v.extractLsb' 8 8))))

/-- R91, D30: the mark of a refusal is kept by every step. -/
def Obligations.RefusalMarkIsKept : Prop := ∀ s t : State, s.Marked → step s = .next t → t.Marked

/-- Every step keeps the invariant: canonical planes, a READY machine built from a well-formed configuration with images of the right
sizes, and a trace of legal events only (R15, R7, R79, R74 P4, R98). -/
def Obligations.StepKeepsInvariant : Prop := ∀ s t : State, s.Inv → step s = .next t → t.Inv

/-- The state after reset meets the invariant. -/
def Obligations.ResetMeetsInvariant : Prop := State.reset.Inv

/-- R27, R101: the state after reset, by the values the spec gives; its OPEN parameters are opaque (log 2). -/
def Obligations.ResetState : Prop :=
  State.reset.phase = .ready ∧ State.reset.latch = 0x07 ∧ State.reset.mode = ⟨.rom, .rom, .io⟩ ∧ State.reset.trace = [] ∧
  ramRead State.reset 0x0001 = 0x07 ∧ ∀ a : Addr, a ≠ 0x0001 → ramRead State.reset a = if a.toNat % 2 = 0 then 0x00 else 0xFF
end

