-- ==== Sys2Proof/Laws/Memory.lean ====
section
/-! SUPPORT. The laws of a plane: read after write, canonical form, equal reads make equal planes, and runs of consecutive stores. -/

namespace Sys2Proof.Machine

@[simp] theorem Memory.read_nil (fill : Nat → Byte) (a : Nat) : Memory.read fill [] a = fill a := rfl

@[simp] theorem Memory.read_cons (fill : Nat → Byte) (b : Nat) (v : Byte) (m : Memory) (a : Nat) :
    Memory.read fill ((b, v) :: m) a = if b = a then v else Memory.read fill m a := rfl

theorem Memory.read_insert (fill : Nat → Byte) (m : Memory) (a : Nat) (v : Byte) (x : Nat) :
    Memory.read fill (Memory.insert m a v) x = if a = x then v else Memory.read fill m x := by
  induction m with
  | nil => simp [Memory.insert]
  | cons c m ih =>
    obtain ⟨b, w⟩ := c
    simp only [Memory.insert]
    split
    · simp
    · split
      · subst b; simp only [Memory.read_cons]; split <;> rfl
      · simp only [Memory.read_cons, ih]
        split <;> split <;> first | rfl | omega

theorem Memory.read_erase (fill : Nat → Byte) (m : Memory) (a x : Nat) :
    Memory.read fill (Memory.erase m a) x = if a = x then fill x else Memory.read fill m x := by
  induction m with
  | nil => simp [Memory.erase]
  | cons c m ih =>
    obtain ⟨b, w⟩ := c
    simp only [Memory.erase, List.filter_cons] at ih ⊢
    by_cases h : b = a
    · subst b
      simp only [ne_eq, not_true_eq_false, decide_false, Bool.false_eq_true, ↓reduceIte, ih, Memory.read_cons]
      split <;> rfl
    · simp only [ne_eq, h, not_false_eq_true, decide_true, ↓reduceIte, Memory.read_cons, ih]
      split <;> split <;> first | rfl | omega

/-- Read after write: the value at the address written, the old byte everywhere else; for every list of cells, canonical or not. -/
theorem Memory.read_write (fill : Nat → Byte) (m : Memory) (a : Nat) (v : Byte) (x : Nat) :
    Memory.read fill (Memory.write fill m a v) x = if a = x then v else Memory.read fill m x := by
  unfold Memory.write
  split
  · next h => rw [Memory.read_erase]; split
              · next e => rw [← e, h]
              · rfl
  · exact Memory.read_insert ..

@[simp] theorem Memory.read_write_same (fill : Nat → Byte) (m : Memory) (a : Nat) (v : Byte) :
    Memory.read fill (Memory.write fill m a v) a = v := by simp [Memory.read_write]

theorem Memory.read_write_other (fill : Nat → Byte) (m : Memory) {a x : Nat} (v : Byte) (h : a ≠ x) :
    Memory.read fill (Memory.write fill m a v) x = Memory.read fill m x := by simp [Memory.read_write, h]

/-- Read after write at 16-bit addresses. -/
theorem Memory.read_write_addr (fill : Nat → Byte) (m : Memory) (a : Addr) (v : Byte) (x : Addr) :
    Memory.read fill (Memory.write fill m a.toNat v) x.toNat = if a = x then v else Memory.read fill m x.toNat := by
  rw [Memory.read_write]
  by_cases h : a = x
  · simp [h]
  · rw [if_neg (fun e => h (BitVec.eq_of_toNat_eq e)), if_neg h]

theorem Memory.mem_insert {m : Memory} {a : Nat} {v : Byte} {c : Host.Cell} (h : c ∈ Memory.insert m a v) :
    c = (a, v) ∨ c ∈ m := by
  induction m with
  | nil => simpa [Memory.insert] using h
  | cons d m ih =>
    obtain ⟨b, w⟩ := d
    simp only [Memory.insert] at h
    split at h
    · simpa using h
    · split at h
      · rcases List.mem_cons.1 h with h | h
        · exact .inl h
        · exact .inr (List.mem_cons_of_mem _ h)
      · rcases List.mem_cons.1 h with h | h
        · exact .inr (h ▸ List.mem_cons_self ..)
        · exact (ih h).imp_right (List.mem_cons_of_mem _)

theorem Memory.pairwise_insert {m : Memory} (a : Nat) (v : Byte) (h : m.Pairwise (fun c d => c.1 < d.1)) :
    (Memory.insert m a v).Pairwise (fun c d => c.1 < d.1) := by
  induction m with
  | nil => simp [Memory.insert]
  | cons d m ih =>
    obtain ⟨b, w⟩ := d
    obtain ⟨hb, hm⟩ := List.pairwise_cons.1 h
    simp only [Memory.insert]
    split
    · next lt =>
      refine List.pairwise_cons.2 ⟨fun c hc => ?_, h⟩
      rcases List.mem_cons.1 hc with hc | hc
      · subst hc; exact lt
      · exact Nat.lt_trans lt (hb c hc)
    · split
      · next e => subst e; exact List.pairwise_cons.2 ⟨hb, hm⟩
      · refine List.pairwise_cons.2 ⟨fun c hc => ?_, ih hm⟩
        rcases Memory.mem_insert hc with hc | hc
        · subst hc; show b < a; omega
        · exact hb c hc

/-- A write keeps the canonical form. -/
theorem Memory.write_wf {fill : Nat → Byte} {m : Memory} (h : Memory.wf fill m) {a : Nat} (ha : a < Parameters.planeSize) (v : Byte) :
    Memory.wf fill (Memory.write fill m a v) := by
  unfold Memory.write
  split
  · exact ⟨h.1.filter _, fun c hc => h.2 c (List.mem_of_mem_filter hc)⟩
  · next hv =>
    refine ⟨Memory.pairwise_insert a v h.1, fun c hc => ?_⟩
    rcases Memory.mem_insert hc with hc | hc
    · subst hc; exact ⟨ha, hv⟩
    · exact h.2 c hc

theorem Memory.nil_wf (fill : Nat → Byte) : Memory.wf fill [] := ⟨List.Pairwise.nil, fun _ h => nomatch h⟩

/-- A 16-bit address is an index of a plane. -/
theorem addr_lt_planeSize (a : Addr) : a.toNat < Parameters.planeSize := a.isLt

/-- A store at a 16-bit address keeps the canonical form. -/
theorem Memory.write_addr_wf {fill : Nat → Byte} {m : Memory} (h : Memory.wf fill m) (a : Addr) (v : Byte) :
    Memory.wf fill (Memory.write fill m a.toNat v) := Memory.write_wf h (addr_lt_planeSize a) v

/-- Consecutive stores keep the canonical form. -/
theorem Memory.writeBytes_wf {fill : Nat → Byte} {m : Memory} (h : Memory.wf fill m) (a : Addr) (bs : List Byte) :
    Memory.wf fill (Memory.writeBytes fill m a bs) := by
  induction bs generalizing m a with
  | nil => exact h
  | cons b bs ih => exact ih (Memory.write_addr_wf h a b) (a + 1)

theorem Memory.read_of_lt_all (fill : Nat → Byte) {m : Memory} {a : Nat} (h : ∀ c ∈ m, a < c.1) :
    Memory.read fill m a = fill a := by
  induction m with
  | nil => rfl
  | cons c m ih =>
    obtain ⟨b, v⟩ := c
    have hb : a < b := h (b, v) (List.mem_cons_self ..)
    rw [Memory.read_cons, if_neg (by omega), ih fun c hc => h c (List.mem_cons_of_mem _ hc)]

/-- Equal memories are equal data: two planes in canonical form that read the same at every address are the same list. -/
theorem Memory.ext_of_wf {fill : Nat → Byte} {m n : Memory} (hm : Memory.wf fill m) (hn : Memory.wf fill n)
    (h : ∀ a, a < Parameters.planeSize → Memory.read fill m a = Memory.read fill n a) : m = n := by
  induction m generalizing n with
  | nil =>
    cases n with
    | nil => rfl
    | cons d n =>
      have hd := hn.2 d (List.mem_cons_self ..)
      have r := h d.1 hd.1
      rw [show d = (d.1, d.2) from rfl, Memory.read_cons, if_pos rfl] at r
      exact absurd r.symm hd.2
  | cons c m ih =>
    obtain ⟨b, v⟩ := c
    have hb := hm.2 (b, v) (List.mem_cons_self ..)
    obtain ⟨hlt, hmp⟩ := List.pairwise_cons.1 hm.1
    cases n with
    | nil => exact absurd (by simpa using h b hb.1) hb.2
    | cons d n =>
      obtain ⟨e, w⟩ := d
      have he := hn.2 (e, w) (List.mem_cons_self ..)
      obtain ⟨hltn, hnp⟩ := List.pairwise_cons.1 hn.1
      have hbe : b = e := by
        rcases Nat.lt_trichotomy b e with l | l | l
        · refine absurd ?_ hb.2
          have r := h b hb.1
          rw [Memory.read_cons, if_pos rfl,
            Memory.read_of_lt_all (m := (e, w) :: n) fill fun c hc => ?_] at r
          · exact r
          · rcases List.mem_cons.1 hc with hc | hc
            · subst hc; exact l
            · exact Nat.lt_trans l (hltn c hc)
        · exact l
        · refine absurd ?_ he.2
          have r := h e he.1
          rw [Memory.read_cons fill e w, if_pos rfl,
            Memory.read_of_lt_all (m := (b, v) :: m) fill fun c hc => ?_] at r
          · exact r.symm
          · rcases List.mem_cons.1 hc with hc | hc
            · subst hc; exact l
            · exact Nat.lt_trans l (hlt c hc)
      subst hbe
      have hvw : v = w := by simpa using h b hb.1
      subst hvw
      congr 1
      refine ih ⟨hmp, fun c hc => hm.2 c (List.mem_cons_of_mem _ hc)⟩
        ⟨hnp, fun c hc => hn.2 c (List.mem_cons_of_mem _ hc)⟩ fun a ha => ?_
      by_cases hab : b = a
      · subst hab
        rw [Memory.read_of_lt_all fill hlt, Memory.read_of_lt_all fill hltn]
      · simpa [hab] using h a ha

/-- Consecutive stores leave every address they do not span as it was. -/
theorem Memory.read_writeBytes_outside (fill : Nat → Byte) (m : Memory) (a : Addr) (bs : List Byte) {x : Nat}
    (h : ∀ i, i < bs.length → (a + BitVec.ofNat 16 i).toNat ≠ x) :
    Memory.read fill (Memory.writeBytes fill m a bs) x = Memory.read fill m x := by
  induction bs generalizing m a with
  | nil => rfl
  | cons b bs ih =>
    rw [Memory.writeBytes, ih, Memory.read_write_other]
    · simpa using h 0 (by simp)
    · intro i hi
      have := h (i + 1) (by simpa using hi)
      rwa [BitVec.ofNat_add, BitVec.add_comm (BitVec.ofNat 16 i), ← BitVec.add_assoc] at this

/-- Consecutive stores leave at its place each byte that no later one wraps onto: the last plane's worth of them. -/
theorem Memory.read_writeBytes_inside (fill : Nat → Byte) (m : Memory) (a : Addr) (bs : List Byte)
    (i : Nat) (hi : i < bs.length) (hlen : bs.length ≤ i + Parameters.planeSize) :
    Memory.read fill (Memory.writeBytes fill m a bs) (a + BitVec.ofNat 16 i).toNat = bs[i] := by
  induction bs generalizing m a i with
  | nil => simp at hi
  | cons b bs ih =>
    simp only [List.length_cons] at hlen hi
    rw [Memory.writeBytes]
    cases i with
    | zero =>
      rw [Memory.read_writeBytes_outside]
      · simp
      · intro j hj
        rw [BitVec.add_assoc]
        simp only [Parameters.planeSize] at hlen
        intro e
        have e := BitVec.eq_of_toNat_eq e
        bv_omega
    | succ i =>
      have := ih (Memory.write fill m a.toNat b) (a + 1) i (by omega) (by omega)
      rw [BitVec.ofNat_add, BitVec.add_comm (BitVec.ofNat 16 i), ← BitVec.add_assoc]
      simpa using this

end Sys2Proof.Machine
end

