-- ==== Sys2Proof/Laws/Loader.lean ====
section
/-! SUPPORT. The loader and the payload copies: they keep the canonical form, and each is an overlay: a fixed set of bytes laid over
whatever the plane held. -/

namespace Sys2Proof.Machine

theorem patchRoms_wf (ps : List (Addr × Byte)) {m : Memory} (h : Memory.wf romFill m) : Memory.wf romFill (patchRoms ps m) := by
  induction ps generalizing m with
  | nil => exact h
  | cons p ps ih => exact ih (Memory.write_addr_wf h p.1 p.2)

theorem loadImages_wf (c : Config) {m : Memory} (h : Memory.wf romFill m) : Memory.wf romFill (loadImages c m) :=
  Memory.writeBytes_wf (Memory.writeBytes_wf (Memory.writeBytes_wf h _ _) _ _) _ _

theorem copyPayload_wf (e : Addr) (p : Payload) {m : Memory} (h : Memory.wf ramFill m) : Memory.wf ramFill (copyPayload e m p) := by
  cases p with
  | monitor dest bytes => exact Memory.writeBytes_wf h _ _
  | program lo hi bytes => exact Memory.write_addr_wf (Memory.write_addr_wf (Memory.writeBytes_wf h _ _) _ _) _ _

theorem foldl_copyPayload_wf (e : Addr) (ps : List Payload) {m : Memory} (h : Memory.wf ramFill m) :
    Memory.wf ramFill (ps.foldl (copyPayload e) m) := by
  induction ps generalizing m with
  | nil => exact h
  | cons p ps ih => exact ih (copyPayload_wf e p h)

theorem patchRam_wf (c : Config) {m : Memory} (h : Memory.wf ramFill m) : Memory.wf ramFill (patchRam c m) :=
  foldl_copyPayload_wf _ _ h

theorem romBuilt_wf (c : Config) : Memory.wf romFill (romBuilt c) := patchRoms_wf _ (loadImages_wf c (Memory.nil_wf _))

theorem ramBuilt_wf (c : Config) : Memory.wf ramFill (ramBuilt c) := Memory.write_addr_wf (Memory.nil_wf _) _ _

/-- A change of a plane that lays fixed bytes over it: what an address reads after it is either a fixed byte or what it read before. -/
def IsOverlay (fill : Nat → Byte) (g : Memory → Memory) : Prop :=
  ∃ f : Nat → Option Byte, ∀ m x, Memory.read fill (g m) x = (f x).getD (Memory.read fill m x)

theorem IsOverlay.id (fill : Nat → Byte) : IsOverlay fill (fun m => m) := ⟨fun _ => none, fun _ _ => rfl⟩

theorem IsOverlay.comp {fill : Nat → Byte} {g h : Memory → Memory} (hg : IsOverlay fill g) (hh : IsOverlay fill h) :
    IsOverlay fill (fun m => g (h m)) := by
  obtain ⟨f, hf⟩ := hg
  obtain ⟨k, hk⟩ := hh
  refine ⟨fun x => (f x).or (k x), fun m x => ?_⟩
  rw [hf, hk]
  show _ = ((f x).or (k x)).getD _
  cases f x <;> rfl

theorem isOverlay_write (fill : Nat → Byte) (a : Nat) (v : Byte) : IsOverlay fill (fun m => Memory.write fill m a v) := by
  refine ⟨fun x => if a = x then some v else none, fun m x => ?_⟩
  rw [Memory.read_write]
  by_cases h : a = x <;> simp [h]

theorem isOverlay_writeBytes (fill : Nat → Byte) (a : Addr) (bs : List Byte) :
    IsOverlay fill (fun m => Memory.writeBytes fill m a bs) := by
  induction bs generalizing a with
  | nil => exact IsOverlay.id fill
  | cons b bs ih => exact (ih (a + 1)).comp (isOverlay_write fill a.toNat b)

theorem isOverlay_copyPayload (e : Addr) (p : Payload) : IsOverlay ramFill (fun m => copyPayload e m p) := by
  cases p with
  | monitor dest bytes => exact isOverlay_writeBytes _ _ _
  | program lo hi bytes => exact ((isOverlay_write _ _ _).comp (isOverlay_write _ _ _)).comp (isOverlay_writeBytes _ _ _)

theorem isOverlay_foldl_copyPayload (e : Addr) (ps : List Payload) : IsOverlay ramFill (fun m => ps.foldl (copyPayload e) m) := by
  induction ps with
  | nil => exact IsOverlay.id _
  | cons p ps ih => exact ih.comp (isOverlay_copyPayload e p)

/-- The RAM-patch hook lays the same bytes over RAM at every run. -/
theorem isOverlay_patchRam (c : Config) : IsOverlay ramFill (patchRam c) := isOverlay_foldl_copyPayload _ _

/-- An overlay applied twice reads as applied once. -/
theorem IsOverlay.twice {fill : Nat → Byte} {g : Memory → Memory} (h : IsOverlay fill g) (m : Memory) (x : Nat) :
    Memory.read fill (g (g m)) x = Memory.read fill (g m) x := by
  obtain ⟨f, hf⟩ := h
  rw [hf, hf]
  cases f x <;> rfl

theorem copyPayload_outside (e a : Addr) (p : Payload) (m : Memory) (h : ¬ payloadCovers e a p) :
    Memory.read ramFill (copyPayload e m p) a.toNat = Memory.read ramFill m a.toNat := by
  cases p with
  | monitor dest bytes =>
    refine Memory.read_writeBytes_outside _ _ _ _ fun i hi e => h ⟨i, hi, ?_⟩
    exact (BitVec.eq_of_toNat_eq e).symm
  | program lo hi bytes =>
    simp only [payloadCovers, not_or] at h
    obtain ⟨h1, h2, h3⟩ := h
    simp only [copyPayload, copyProgram]
    rw [Memory.read_write_other, Memory.read_write_other, Memory.read_writeBytes_outside]
    · exact fun i hi e => h1 ⟨i, hi, (BitVec.eq_of_toNat_eq e).symm⟩
    · exact fun e => h2 (BitVec.eq_of_toNat_eq e).symm
    · exact fun e => h3 (BitVec.eq_of_toNat_eq e).symm

/-- A run of payloads leaves every address that none of them covers as it was. -/
theorem foldl_copyPayload_outside (e a : Addr) (ps : List Payload) (m : Memory) (h : ∀ p ∈ ps, ¬ payloadCovers e a p) :
    Memory.read ramFill (ps.foldl (copyPayload e) m) a.toNat = Memory.read ramFill m a.toNat := by
  induction ps generalizing m with
  | nil => rfl
  | cons p ps ih =>
    rw [List.foldl_cons, ih _ fun q hq => h q (List.mem_cons_of_mem _ hq)]
    exact copyPayload_outside _ _ _ _ (h p (List.mem_cons_self ..))

/-- The hook leaves every address no payload covers as it was. -/
theorem patchRam_outside (c : Config) (a : Addr) (m : Memory) (h : ¬ hookCovers c a) :
    Memory.read ramFill (patchRam c m) a.toNat = Memory.read ramFill m a.toNat :=
  foldl_copyPayload_outside _ _ _ _ fun p hp hc => h ⟨p, hp, hc⟩

/-- The payloads are copied in list order: where no later one covers an address, it reads as this one's copy leaves it. -/
theorem patchRam_last (c : Config) (a : Addr) (m : Memory) {pre post : List Payload} {p : Payload} (hc : c.ramPayloads = pre ++ p :: post)
    (h : ∀ q ∈ post, ¬ payloadCovers c.endPtrAddr a q) :
    Memory.read ramFill (patchRam c m) a.toNat =
      Memory.read ramFill (copyPayload c.endPtrAddr (pre.foldl (copyPayload c.endPtrAddr) m) p) a.toNat := by
  rw [patchRam, hc, List.foldl_append, List.foldl_cons, foldl_copyPayload_outside _ _ _ _ h]

theorem patchRoms_append (ps qs : List (Addr × Byte)) (m : Memory) : patchRoms (ps ++ qs) m = patchRoms qs (patchRoms ps m) := by
  simp [patchRoms, List.foldl_append]

/-- A patch list leaves every offset it does not name as it was. -/
theorem patchRoms_outside (ps : List (Addr × Byte)) (m : Memory) (a : Addr) (h : ∀ p ∈ ps, p.1 ≠ a) :
    Memory.read romFill (patchRoms ps m) a.toNat = Memory.read romFill m a.toNat := by
  induction ps generalizing m with
  | nil => rfl
  | cons p ps ih =>
    have hp := h p (List.mem_cons_self ..)
    refine (ih _ fun q hq => h q (List.mem_cons_of_mem _ hq)).trans (Memory.read_write_other _ _ _ fun e => hp ?_)
    exact BitVec.eq_of_toNat_eq e

end Sys2Proof.Machine
end

