-- ==== Sys2Proof/Laws/State.lean ====
section
/-! SUPPORT. One lemma per field per update: what each update of State leaves in each field. -/

namespace Sys2Proof.Machine

@[simp] theorem ramWrite_cfg (a : Addr) (v : Byte) (s : State) : (ramWrite a v s).cfg = s.cfg := rfl
@[simp] theorem ramWrite_phase (a : Addr) (v : Byte) (s : State) : (ramWrite a v s).phase = s.phase := rfl
@[simp] theorem ramWrite_ram (a : Addr) (v : Byte) (s : State) : (ramWrite a v s).ram = Memory.write ramFill s.ram a.toNat v := rfl
@[simp] theorem ramWrite_rom (a : Addr) (v : Byte) (s : State) : (ramWrite a v s).rom = s.rom := rfl
@[simp] theorem ramWrite_latch (a : Addr) (v : Byte) (s : State) : (ramWrite a v s).latch = s.latch := rfl
@[simp] theorem ramWrite_trace (a : Addr) (v : Byte) (s : State) : (ramWrite a v s).trace = s.trace := rfl
@[simp] theorem ramWrite_responses (a : Addr) (v : Byte) (s : State) : (ramWrite a v s).responses = s.responses := rfl
@[simp] theorem ramWrite_requests (a : Addr) (v : Byte) (s : State) : (ramWrite a v s).requests = s.requests := rfl
@[simp] theorem ramWrite_devAnswers (a : Addr) (v : Byte) (s : State) : (ramWrite a v s).devAnswers = s.devAnswers := rfl
@[simp] theorem ramWrite_vicBases (a : Addr) (v : Byte) (s : State) : (ramWrite a v s).vicBases = s.vicBases := rfl
@[simp] theorem ramWrite_draws (a : Addr) (v : Byte) (s : State) : (ramWrite a v s).draws = s.draws := rfl

@[simp] theorem emit_cfg (e : Event) (s : State) : (emit e s).cfg = s.cfg := rfl
@[simp] theorem emit_phase (e : Event) (s : State) : (emit e s).phase = s.phase := rfl
@[simp] theorem emit_ram (e : Event) (s : State) : (emit e s).ram = s.ram := rfl
@[simp] theorem emit_rom (e : Event) (s : State) : (emit e s).rom = s.rom := rfl
@[simp] theorem emit_latch (e : Event) (s : State) : (emit e s).latch = s.latch := rfl
@[simp] theorem emit_trace (e : Event) (s : State) : (emit e s).trace = s.trace ++ [e] := rfl
@[simp] theorem emit_responses (e : Event) (s : State) : (emit e s).responses = s.responses := rfl
@[simp] theorem emit_requests (e : Event) (s : State) : (emit e s).requests = s.requests := rfl
@[simp] theorem emit_devAnswers (e : Event) (s : State) : (emit e s).devAnswers = s.devAnswers := rfl
@[simp] theorem emit_vicBases (e : Event) (s : State) : (emit e s).vicBases = s.vicBases := rfl
@[simp] theorem emit_draws (e : Event) (s : State) : (emit e s).draws = s.draws := rfl

@[simp] theorem respond_cfg (r : Response) (s : State) : (respond r s).cfg = s.cfg := rfl
@[simp] theorem respond_phase (r : Response) (s : State) : (respond r s).phase = s.phase := rfl
@[simp] theorem respond_ram (r : Response) (s : State) : (respond r s).ram = s.ram := rfl
@[simp] theorem respond_rom (r : Response) (s : State) : (respond r s).rom = s.rom := rfl
@[simp] theorem respond_latch (r : Response) (s : State) : (respond r s).latch = s.latch := rfl
@[simp] theorem respond_trace (r : Response) (s : State) : (respond r s).trace = s.trace := rfl
@[simp] theorem respond_responses (r : Response) (s : State) : (respond r s).responses = s.responses ++ [r] := rfl
@[simp] theorem respond_requests (r : Response) (s : State) : (respond r s).requests = s.requests := rfl
@[simp] theorem respond_devAnswers (r : Response) (s : State) : (respond r s).devAnswers = s.devAnswers := rfl
@[simp] theorem respond_vicBases (r : Response) (s : State) : (respond r s).vicBases = s.vicBases := rfl
@[simp] theorem respond_draws (r : Response) (s : State) : (respond r s).draws = s.draws := rfl

@[simp] theorem devWrite_cfg (d : Device) (off v : Byte) (s : State) : (devWrite d off v s).cfg = s.cfg := rfl
@[simp] theorem devWrite_phase (d : Device) (off v : Byte) (s : State) : (devWrite d off v s).phase = s.phase := rfl
@[simp] theorem devWrite_ram (d : Device) (off v : Byte) (s : State) : (devWrite d off v s).ram = s.ram := rfl
@[simp] theorem devWrite_rom (d : Device) (off v : Byte) (s : State) : (devWrite d off v s).rom = s.rom := rfl
@[simp] theorem devWrite_latch (d : Device) (off v : Byte) (s : State) : (devWrite d off v s).latch = s.latch := rfl
@[simp] theorem devWrite_trace (d : Device) (off v : Byte) (s : State) : (devWrite d off v s).trace = s.trace ++ [.pwr d off v] := rfl
@[simp] theorem devWrite_responses (d : Device) (off v : Byte) (s : State) : (devWrite d off v s).responses = s.responses := rfl
@[simp] theorem devWrite_requests (d : Device) (off v : Byte) (s : State) : (devWrite d off v s).requests = s.requests := rfl
@[simp] theorem devWrite_devAnswers (d : Device) (off v : Byte) (s : State) : (devWrite d off v s).devAnswers = s.devAnswers := rfl
@[simp] theorem devWrite_vicBases (d : Device) (off v : Byte) (s : State) : (devWrite d off v s).vicBases = s.vicBases := rfl
@[simp] theorem devWrite_draws (d : Device) (off v : Byte) (s : State) : (devWrite d off v s).draws = s.draws := rfl

@[simp] theorem devRead_cfg (d : Device) (off : Byte) (s : State) : (devRead d off s).2.cfg = s.cfg := rfl
@[simp] theorem devRead_phase (d : Device) (off : Byte) (s : State) : (devRead d off s).2.phase = s.phase := rfl
@[simp] theorem devRead_ram (d : Device) (off : Byte) (s : State) : (devRead d off s).2.ram = s.ram := rfl
@[simp] theorem devRead_rom (d : Device) (off : Byte) (s : State) : (devRead d off s).2.rom = s.rom := rfl
@[simp] theorem devRead_latch (d : Device) (off : Byte) (s : State) : (devRead d off s).2.latch = s.latch := rfl
@[simp] theorem devRead_trace (d : Device) (off : Byte) (s : State) : (devRead d off s).2.trace = s.trace ++ [.prd d off (nextDevByte s)] := rfl
@[simp] theorem devRead_responses (d : Device) (off : Byte) (s : State) : (devRead d off s).2.responses = s.responses := rfl
@[simp] theorem devRead_requests (d : Device) (off : Byte) (s : State) : (devRead d off s).2.requests = s.requests := rfl
@[simp] theorem devRead_devAnswers (d : Device) (off : Byte) (s : State) : (devRead d off s).2.devAnswers = s.devAnswers.tail := rfl
@[simp] theorem devRead_vicBases (d : Device) (off : Byte) (s : State) : (devRead d off s).2.vicBases = s.vicBases := rfl
@[simp] theorem devRead_draws (d : Device) (off : Byte) (s : State) : (devRead d off s).2.draws = s.draws + 1 := rfl

@[simp] theorem vicBase_cfg (s : State) : (vicBase s).2.cfg = s.cfg := rfl
@[simp] theorem vicBase_phase (s : State) : (vicBase s).2.phase = s.phase := rfl
@[simp] theorem vicBase_ram (s : State) : (vicBase s).2.ram = s.ram := rfl
@[simp] theorem vicBase_rom (s : State) : (vicBase s).2.rom = s.rom := rfl
@[simp] theorem vicBase_latch (s : State) : (vicBase s).2.latch = s.latch := rfl
@[simp] theorem vicBase_trace (s : State) : (vicBase s).2.trace = s.trace ++ [.vbase (nextVicBase s)] := rfl
@[simp] theorem vicBase_responses (s : State) : (vicBase s).2.responses = s.responses := rfl
@[simp] theorem vicBase_requests (s : State) : (vicBase s).2.requests = s.requests := rfl
@[simp] theorem vicBase_devAnswers (s : State) : (vicBase s).2.devAnswers = s.devAnswers := rfl
@[simp] theorem vicBase_vicBases (s : State) : (vicBase s).2.vicBases = s.vicBases.tail := rfl
@[simp] theorem vicBase_draws (s : State) : (vicBase s).2.draws = s.draws + 1 := rfl

@[simp] theorem setConfig_cfg (v : Byte) (s : State) : (setConfig v s).cfg = s.cfg := rfl
@[simp] theorem setConfig_phase (v : Byte) (s : State) : (setConfig v s).phase = s.phase := rfl
@[simp] theorem setConfig_ram (v : Byte) (s : State) : (setConfig v s).ram = Memory.write ramFill s.ram s.cfg.map.ctrlAddr.toNat v := rfl
@[simp] theorem setConfig_rom (v : Byte) (s : State) : (setConfig v s).rom = s.rom := rfl
@[simp] theorem setConfig_latch (v : Byte) (s : State) : (setConfig v s).latch = v := rfl
@[simp] theorem setConfig_trace (v : Byte) (s : State) : (setConfig v s).trace = s.trace := rfl
@[simp] theorem setConfig_responses (v : Byte) (s : State) : (setConfig v s).responses = s.responses := rfl
@[simp] theorem setConfig_requests (v : Byte) (s : State) : (setConfig v s).requests = s.requests := rfl
@[simp] theorem setConfig_devAnswers (v : Byte) (s : State) : (setConfig v s).devAnswers = s.devAnswers := rfl
@[simp] theorem setConfig_vicBases (v : Byte) (s : State) : (setConfig v s).vicBases = s.vicBases := rfl
@[simp] theorem setConfig_draws (v : Byte) (s : State) : (setConfig v s).draws = s.draws := rfl

@[simp] theorem runHook_cfg (s : State) : (runHook s).cfg = s.cfg := rfl
@[simp] theorem runHook_phase (s : State) : (runHook s).phase = s.phase := rfl
@[simp] theorem runHook_ram (s : State) : (runHook s).ram = patchRam s.cfg s.ram := rfl
@[simp] theorem runHook_rom (s : State) : (runHook s).rom = s.rom := rfl
@[simp] theorem runHook_latch (s : State) : (runHook s).latch = s.latch := rfl
@[simp] theorem runHook_trace (s : State) : (runHook s).trace = s.trace ++ [.hook] := rfl
@[simp] theorem runHook_responses (s : State) : (runHook s).responses = s.responses := rfl
@[simp] theorem runHook_requests (s : State) : (runHook s).requests = s.requests := rfl
@[simp] theorem runHook_devAnswers (s : State) : (runHook s).devAnswers = s.devAnswers := rfl
@[simp] theorem runHook_vicBases (s : State) : (runHook s).vicBases = s.vicBases := rfl
@[simp] theorem runHook_draws (s : State) : (runHook s).draws = s.draws := rfl

@[simp] theorem refuse_cfg (r : RefusalReason) (s : State) : (refuse r s).cfg = s.cfg := rfl
@[simp] theorem refuse_phase (r : RefusalReason) (s : State) : (refuse r s).phase = s.phase := rfl
@[simp] theorem refuse_ram (r : RefusalReason) (s : State) : (refuse r s).ram = s.ram := rfl
@[simp] theorem refuse_rom (r : RefusalReason) (s : State) : (refuse r s).rom = s.rom := rfl
@[simp] theorem refuse_latch (r : RefusalReason) (s : State) : (refuse r s).latch = s.latch := rfl
@[simp] theorem refuse_trace (r : RefusalReason) (s : State) : (refuse r s).trace = s.trace := rfl
@[simp] theorem refuse_responses (r : RefusalReason) (s : State) : (refuse r s).responses = s.responses ++ [.refused r] := rfl
@[simp] theorem refuse_requests (r : RefusalReason) (s : State) : (refuse r s).requests = s.requests := rfl
@[simp] theorem refuse_devAnswers (r : RefusalReason) (s : State) : (refuse r s).devAnswers = s.devAnswers := rfl
@[simp] theorem refuse_vicBases (r : RefusalReason) (s : State) : (refuse r s).vicBases = s.vicBases := rfl
@[simp] theorem refuse_draws (r : RefusalReason) (s : State) : (refuse r s).draws = s.draws := rfl

@[simp] theorem raiseFault_cfg (f : Fault) (s : State) : (raiseFault f s).cfg = s.cfg := rfl
@[simp] theorem raiseFault_phase (f : Fault) (s : State) : (raiseFault f s).phase = .failed := rfl
@[simp] theorem raiseFault_ram (f : Fault) (s : State) : (raiseFault f s).ram = s.ram := rfl
@[simp] theorem raiseFault_rom (f : Fault) (s : State) : (raiseFault f s).rom = s.rom := rfl
@[simp] theorem raiseFault_latch (f : Fault) (s : State) : (raiseFault f s).latch = s.latch := rfl
@[simp] theorem raiseFault_trace (f : Fault) (s : State) : (raiseFault f s).trace = s.trace := rfl
@[simp] theorem raiseFault_responses (f : Fault) (s : State) : (raiseFault f s).responses = s.responses ++ [.failed f] := rfl
@[simp] theorem raiseFault_requests (f : Fault) (s : State) : (raiseFault f s).requests = s.requests := rfl
@[simp] theorem raiseFault_devAnswers (f : Fault) (s : State) : (raiseFault f s).devAnswers = s.devAnswers := rfl
@[simp] theorem raiseFault_vicBases (f : Fault) (s : State) : (raiseFault f s).vicBases = s.vicBases := rfl
@[simp] theorem raiseFault_draws (f : Fault) (s : State) : (raiseFault f s).draws = s.draws := rfl

@[simp] theorem issueFirst_cfg (w : ReqWord) (s : State) : (issueFirst w s).cfg = s.cfg := rfl
@[simp] theorem issueFirst_phase (w : ReqWord) (s : State) : (issueFirst w s).phase = s.phase := rfl
@[simp] theorem issueFirst_ram (w : ReqWord) (s : State) : (issueFirst w s).ram = s.ram := rfl
@[simp] theorem issueFirst_rom (w : ReqWord) (s : State) : (issueFirst w s).rom = s.rom := rfl
@[simp] theorem issueFirst_latch (w : ReqWord) (s : State) : (issueFirst w s).latch = s.latch := rfl
@[simp] theorem issueFirst_trace (w : ReqWord) (s : State) : (issueFirst w s).trace = s.trace := rfl
@[simp] theorem issueFirst_responses (w : ReqWord) (s : State) : (issueFirst w s).responses = s.responses := rfl
@[simp] theorem issueFirst_requests (w : ReqWord) (s : State) : (issueFirst w s).requests = w :: s.requests := rfl
@[simp] theorem issueFirst_devAnswers (w : ReqWord) (s : State) : (issueFirst w s).devAnswers = s.devAnswers := rfl
@[simp] theorem issueFirst_vicBases (w : ReqWord) (s : State) : (issueFirst w s).vicBases = s.vicBases := rfl
@[simp] theorem issueFirst_draws (w : ReqWord) (s : State) : (issueFirst w s).draws = s.draws := rfl

@[simp] theorem devRead_fst (d : Device) (off : Byte) (s : State) : (devRead d off s).1 = nextDevByte s := rfl
@[simp] theorem vicBase_fst (s : State) : (vicBase s).1 = nextVicBase s := rfl

/-- R56: a RAM store seen by the next RAM read. -/
theorem ramRead_ramWrite (a : Addr) (v : Byte) (s : State) (x : Addr) :
    ramRead (ramWrite a v s) x = if a = x then v else ramRead s x := Memory.read_write_addr _ _ _ _ _

/-- R63: what RAM reads after set_config. -/
theorem ramRead_setConfig (v : Byte) (s : State) (x : Addr) :
    ramRead (setConfig v s) x = if s.cfg.map.ctrlAddr = x then v else ramRead s x := Memory.read_write_addr _ _ _ _ _

@[simp] theorem ramRead_respond (r : Response) (s : State) (x : Addr) : ramRead (respond r s) x = ramRead s x := rfl
@[simp] theorem romRead_respond (r : Response) (s : State) (x : Addr) : romRead (respond r s) x = romRead s x := rfl
@[simp] theorem romRead_ramWrite (a : Addr) (v : Byte) (s : State) (x : Addr) : romRead (ramWrite a v s) x = romRead s x := rfl

end Sys2Proof.Machine
end

