-- ==== Sys2Proof/Laws/Ops.lean ====
section
/-! SUPPORT. One lemma per shared operation that says everything it can do; provers cite these instead of unfolding. -/

namespace Sys2Proof.Machine

/-- A bus request in phase READY has its effect. -/
theorem serve_ready {s : State} (h : s.phase = .ready) (effect : State → State) : serve s effect = .next (effect s) := by
  simp [serve, busRefusal, h]

/-- A bus request in phase UNBUILT is refused. -/
theorem serve_unbuilt {s : State} (h : s.phase = .unbuilt) (effect : State → State) :
    serve s effect = .next (refuse .notBuilt s) := by simp [serve, busRefusal, h]

/-- A bus request in phase FAILED is refused. -/
theorem serve_failed {s : State} (h : s.phase = .failed) (effect : State → State) :
    serve s effect = .next (refuse .failed s) := by simp [serve, busRefusal, h]

/-- Everything a bus request can answer. -/
theorem serve_cases (s : State) (effect : State → State) :
    (s.phase = .ready ∧ serve s effect = .next (effect s)) ∨
    (∃ r, busRefusal s.phase = some r ∧ s.phase ≠ .ready ∧ serve s effect = .next (refuse r s)) := by
  cases h : s.phase
  · exact .inr ⟨_, rfl, by simp, serve_unbuilt h _⟩
  · exact .inl ⟨rfl, serve_ready h _⟩
  · exact .inr ⟨_, rfl, by simp, serve_failed h _⟩

/-- Everything write decode can answer (R33). -/
theorem writeClass_cases (m : AddressMap) (a : Addr) :
    (a = m.ctrlAddr ∧ writeClass m a = .control) ∨
    (∃ d : Device, a ≠ m.ctrlAddr ∧ (d.window m).Has a ∧ writeClass m a = .peripheral d) ∨
    (a ≠ m.ctrlAddr ∧ (∀ d : Device, ¬ (d.window m).Has a) ∧ writeClass m a = .default) := by
  unfold writeClass
  by_cases h0 : a = m.ctrlAddr
  · exact .inl ⟨h0, if_pos h0⟩
  rw [if_neg h0]
  by_cases h1 : m.vicWin.Has a
  · exact .inr (.inl ⟨.vic, h0, h1, if_pos h1⟩)
  rw [if_neg h1]
  by_cases h2 : m.cia1Win.Has a
  · exact .inr (.inl ⟨.cia1, h0, h2, if_pos h2⟩)
  rw [if_neg h2]
  by_cases h3 : m.cia2Win.Has a
  · exact .inr (.inl ⟨.cia2, h0, h3, if_pos h3⟩)
  rw [if_neg h3]
  by_cases h4 : m.sidWin.Has a
  · exact .inr (.inl ⟨.sid, h0, h4, if_pos h4⟩)
  rw [if_neg h4]
  exact .inr (.inr ⟨h0, fun d => by cases d <;> assumption, rfl⟩)

/-- Everything read decode can answer (R34). -/
theorem readClass_cases (m : AddressMap) (a : Addr) :
    (∃ d : Device, d ≠ .sid ∧ (d.window m).Has a ∧ readClass m a = .peripheral d) ∨
    (m.basicWin.Has a ∧ readClass m a = .basic) ∨
    (m.kernalWin.Has a ∧ readClass m a = .kernal) ∨
    ((∀ d : Device, d ≠ .sid → ¬ (d.window m).Has a) ∧ ¬ m.basicWin.Has a ∧ ¬ m.kernalWin.Has a ∧ readClass m a = .default) := by
  unfold readClass
  by_cases h1 : m.vicWin.Has a
  · exact .inl ⟨.vic, by simp, h1, if_pos h1⟩
  rw [if_neg h1]
  by_cases h2 : m.cia1Win.Has a
  · exact .inl ⟨.cia1, by simp, h2, if_pos h2⟩
  rw [if_neg h2]
  by_cases h3 : m.cia2Win.Has a
  · exact .inl ⟨.cia2, by simp, h3, if_pos h3⟩
  rw [if_neg h3]
  by_cases h4 : m.basicWin.Has a
  · exact .inr (.inl ⟨h4, if_pos h4⟩)
  rw [if_neg h4]
  by_cases h5 : m.kernalWin.Has a
  · exact .inr (.inr (.inl ⟨h5, if_pos h5⟩))
  rw [if_neg h5]
  refine .inr (.inr (.inr ⟨fun d hd => ?_, h4, h5, rfl⟩))
  cases d <;> first | assumption | exact absurd rfl hd

/-- Everything a routed byte write can do (R66). -/
theorem writeByte_cases (a : Addr) (v : Byte) (s : State) :
    (a = s.cfg.map.ctrlAddr ∧ writeByte a v s = setConfig v s) ∨
    (∃ d : Device, a ≠ s.cfg.map.ctrlAddr ∧ (d.window s.cfg.map).Has a ∧ s.mode.chario = .io ∧
      writeByte a v s = devWrite d (devOffset d a) v s) ∨
    (a ≠ s.cfg.map.ctrlAddr ∧ writeByte a v s = ramWrite a v s) ∨
    (a ≠ s.cfg.map.ctrlAddr ∧ (∀ d : Device, ¬ (d.window s.cfg.map).Has a) ∧ a = Parameters.triggerAddr ∧ v = Parameters.triggerValue ∧
      writeByte a v s = runHook (ramWrite a v s)) := by
  rcases writeClass_cases s.cfg.map a with ⟨h, hc⟩ | ⟨d, h, hw, hc⟩ | ⟨h, hw, hc⟩
  · exact .inl ⟨h, by simp [writeByte, hc]⟩
  · by_cases hio : s.mode.chario = .io
    · exact .inr (.inl ⟨d, h, hw, hio, by simp [writeByte, hc, peripheralStore, hio]⟩)
    · exact .inr (.inr (.inl ⟨h, by simp [writeByte, hc, peripheralStore, hio]⟩))
  · by_cases ht : a = Parameters.triggerAddr ∧ v = Parameters.triggerValue
    · exact .inr (.inr (.inr ⟨h, hw, ht.1, ht.2, by simp only [writeByte, hc, defaultStore, if_pos ht]⟩))
    · exact .inr (.inr (.inl ⟨h, by simp only [writeByte, hc, defaultStore, if_neg ht]⟩))

/-- Everything a routed byte read can do (R67). -/
theorem readByte_cases (a : Addr) (s : State) :
    readByte a s = (ramRead s a, s) ∨ readByte a s = (romRead s a, s) ∨
    (∃ d : Device, d ≠ .sid ∧ (d.window s.cfg.map).Has a ∧ s.mode.chario = .io ∧ readByte a s = devRead d (devOffset d a) s) := by
  rcases readClass_cases s.cfg.map a with ⟨d, hd, hw, hc⟩ | ⟨_, hc⟩ | ⟨_, hc⟩ | ⟨_, _, _, hc⟩
  · by_cases hio : s.mode.chario = .io
    · exact .inr (.inr ⟨d, hd, hw, hio, by simp [readByte, hc, peripheralLoad, hio]⟩)
    · simp only [readByte, hc, peripheralLoad, hio, if_false, overlayRead]
      split
      · split <;> simp
      · simp
  · simp only [readByte, hc, overlayRead]; split <;> simp
  · simp only [readByte, hc, overlayRead]; split <;> simp
  · simp [readByte, hc]

@[simp] theorem writeByte_cfg (a : Addr) (v : Byte) (s : State) : (writeByte a v s).cfg = s.cfg := by
  rcases writeByte_cases a v s with ⟨_, h⟩ | ⟨_, _, _, _, h⟩ | ⟨_, h⟩ | ⟨_, _, _, _, h⟩ <;> simp [h]
@[simp] theorem writeByte_phase (a : Addr) (v : Byte) (s : State) : (writeByte a v s).phase = s.phase := by
  rcases writeByte_cases a v s with ⟨_, h⟩ | ⟨_, _, _, _, h⟩ | ⟨_, h⟩ | ⟨_, _, _, _, h⟩ <;> simp [h]
@[simp] theorem writeByte_rom (a : Addr) (v : Byte) (s : State) : (writeByte a v s).rom = s.rom := by
  rcases writeByte_cases a v s with ⟨_, h⟩ | ⟨_, _, _, _, h⟩ | ⟨_, h⟩ | ⟨_, _, _, _, h⟩ <;> simp [h]
@[simp] theorem writeByte_responses (a : Addr) (v : Byte) (s : State) : (writeByte a v s).responses = s.responses := by
  rcases writeByte_cases a v s with ⟨_, h⟩ | ⟨_, _, _, _, h⟩ | ⟨_, h⟩ | ⟨_, _, _, _, h⟩ <;> simp [h]
@[simp] theorem writeByte_requests (a : Addr) (v : Byte) (s : State) : (writeByte a v s).requests = s.requests := by
  rcases writeByte_cases a v s with ⟨_, h⟩ | ⟨_, _, _, _, h⟩ | ⟨_, h⟩ | ⟨_, _, _, _, h⟩ <;> simp [h]
@[simp] theorem writeByte_devAnswers (a : Addr) (v : Byte) (s : State) : (writeByte a v s).devAnswers = s.devAnswers := by
  rcases writeByte_cases a v s with ⟨_, h⟩ | ⟨_, _, _, _, h⟩ | ⟨_, h⟩ | ⟨_, _, _, _, h⟩ <;> simp [h]
@[simp] theorem writeByte_vicBases (a : Addr) (v : Byte) (s : State) : (writeByte a v s).vicBases = s.vicBases := by
  rcases writeByte_cases a v s with ⟨_, h⟩ | ⟨_, _, _, _, h⟩ | ⟨_, h⟩ | ⟨_, _, _, _, h⟩ <;> simp [h]
@[simp] theorem writeByte_draws (a : Addr) (v : Byte) (s : State) : (writeByte a v s).draws = s.draws := by
  rcases writeByte_cases a v s with ⟨_, h⟩ | ⟨_, _, _, _, h⟩ | ⟨_, h⟩ | ⟨_, _, _, _, h⟩ <;> simp [h]

@[simp] theorem readByte_cfg (a : Addr) (s : State) : (readByte a s).2.cfg = s.cfg := by
  rcases readByte_cases a s with h | h | ⟨_, _, _, _, h⟩ <;> simp [h]
@[simp] theorem readByte_phase (a : Addr) (s : State) : (readByte a s).2.phase = s.phase := by
  rcases readByte_cases a s with h | h | ⟨_, _, _, _, h⟩ <;> simp [h]
@[simp] theorem readByte_ram (a : Addr) (s : State) : (readByte a s).2.ram = s.ram := by
  rcases readByte_cases a s with h | h | ⟨_, _, _, _, h⟩ <;> simp [h]
@[simp] theorem readByte_rom (a : Addr) (s : State) : (readByte a s).2.rom = s.rom := by
  rcases readByte_cases a s with h | h | ⟨_, _, _, _, h⟩ <;> simp [h]
@[simp] theorem readByte_latch (a : Addr) (s : State) : (readByte a s).2.latch = s.latch := by
  rcases readByte_cases a s with h | h | ⟨_, _, _, _, h⟩ <;> simp [h]
@[simp] theorem readByte_responses (a : Addr) (s : State) : (readByte a s).2.responses = s.responses := by
  rcases readByte_cases a s with h | h | ⟨_, _, _, _, h⟩ <;> simp [h]
@[simp] theorem readByte_requests (a : Addr) (s : State) : (readByte a s).2.requests = s.requests := by
  rcases readByte_cases a s with h | h | ⟨_, _, _, _, h⟩ <;> simp [h]
@[simp] theorem readByte_vicBases (a : Addr) (s : State) : (readByte a s).2.vicBases = s.vicBases := by
  rcases readByte_cases a s with h | h | ⟨_, _, _, _, h⟩ <;> simp [h]

/-- A response recorded before a routed write might as well be recorded after it. -/
theorem writeByte_respond (r : Response) (a : Addr) (v : Byte) (s : State) :
    writeByte a v (respond r s) = respond r (writeByte a v s) := by
  simp only [writeByte, respond_cfg]
  cases writeClass s.cfg.map a with
  | control => rfl
  | peripheral d =>
    by_cases h : (modeOf s.cfg.map s.latch).chario = .io <;> simp [peripheralStore, State.mode, h] <;> rfl
  | basic => simp only [defaultStore]; split <;> rfl
  | kernal => simp only [defaultStore]; split <;> rfl
  | default => simp only [defaultStore]; split <;> rfl

/-- A response recorded before a routed read might as well be recorded after it. -/
theorem readByte_respond (r : Response) (a : Addr) (s : State) :
    readByte a (respond r s) = ((readByte a s).1, respond r (readByte a s).2) := by
  simp only [readByte, respond_cfg]
  cases readClass s.cfg.map a with
  | control => rfl
  | peripheral d =>
    by_cases h : (modeOf s.cfg.map s.latch).chario = .io <;> by_cases hd : d = .vic <;>
      simp [peripheralLoad, State.mode, h, hd] <;> rfl
  | basic => rfl
  | kernal => rfl
  | default => rfl

/-- The offset passed to a device is at most the device's mask (R74, P4). -/
theorem devOffset_le (d : Device) (a : Addr) : devOffset d a ≤ d.maxOffset := by
  rw [BitVec.le_def]
  cases d <;>
    simp only [devOffset, Device.mask, Device.maxOffset, Parameters.vicMask, Parameters.ciaMask, Parameters.sidMask,
      BitVec.toNat_setWidth, BitVec.toNat_and] <;>
    exact Nat.le_trans (Nat.mod_le _ _) Nat.and_le_right

/-- Everything construction can do (R78). -/
theorem construct_cases (s : State) :
    (∃ image size, wrongSize s.cfg = some (image, size) ∧
      construct s = { s with ram := [], rom := [], trace := [], phase := .failed,
                             responses := s.responses ++ [.failed (.romImageSize image size)] }) ∨
    (wrongSize s.cfg = none ∧
      construct s = { s with ram := ramBuilt s.cfg, rom := romBuilt s.cfg, trace := [], latch := s.cfg.map.defaultLatch,
                             phase := .ready, responses := s.responses ++ [.ready] }) := by
  unfold construct
  dsimp only
  split
  · next image size h => exact .inl ⟨image, size, h, rfl⟩
  · next h => exact .inr ⟨h, rfl⟩

/-- The size check fails exactly when a size is wrong (R79), and it names a wrong one. -/
theorem wrongSize_none_iff (c : Config) : wrongSize c = none ↔ c.SizesRight := by
  unfold wrongSize Config.SizesRight
  split
  · simp [*]
  · split
    · simp [*]
    · split <;> simp_all

end Sys2Proof.Machine
end

