-- ==== Sys2Proof/Laws/Exec.lean ====
section
/-! SUPPORT. What exec answers for each request in phase READY, in terms of the shared operations; and what it answers otherwise. -/

namespace Sys2Proof.Machine

variable {s : State}

theorem exec_rdb (h : s.phase = .ready) (a : Addr) : exec (.rdb a) s = .next (answerByte (readByte a s)) :=
  serve_ready h fun s => answerByte (readByte a s)
theorem exec_wrb (h : s.phase = .ready) (a : Addr) (v : Byte) : exec (.wrb a v) s = .next (respond .ack (writeByte a v s)) :=
  serve_ready h fun s => respond .ack (writeByte a v s)
theorem exec_rdw (h : s.phase = .ready) (a : Addr) : exec (.rdw a) s = .next (answerWord (readWord a s)) :=
  serve_ready h fun s => answerWord (readWord a s)
theorem exec_wrw (h : s.phase = .ready) (a : Addr) (v : Word) : exec (.wrw a v) s = .next (respond .ack (writeWord a v s)) :=
  serve_ready h fun s => respond .ack (writeWord a v s)
theorem exec_rdbn (h : s.phase = .ready) (a : Addr) : exec (.rdbn a) s = .next (answerByte (ramRead s a, s)) :=
  serve_ready h fun s => answerByte (ramRead s a, s)
theorem exec_wrbn (h : s.phase = .ready) (a : Addr) (v : Byte) : exec (.wrbn a v) s = .next (respond .ack (ramWrite a v s)) :=
  serve_ready h fun s => respond .ack (ramWrite a v s)
theorem exec_rdwn (h : s.phase = .ready) (a : Addr) :
    exec (.rdwn a) s = .next (answerWord (joinBytes (ramRead s (nextAddr a)) (ramRead s a), s)) :=
  serve_ready h fun s => answerWord (joinBytes (ramRead s (nextAddr a)) (ramRead s a), s)
theorem exec_wrwn (h : s.phase = .ready) (a : Addr) (v : Word) :
    exec (.wrwn a v) s = .next (respond .ack (ramWrite (nextAddr a) (highByte v) (ramWrite a (lowByte v) s))) :=
  serve_ready h fun s => respond .ack (ramWrite (nextAddr a) (highByte v) (ramWrite a (lowByte v) s))
theorem exec_vrd (h : s.phase = .ready) (a : Addr) : exec (.vrd a) s = .next (answerByte (vicReadByte a s)) :=
  serve_ready h fun s => answerByte (vicReadByte a s)

/-- A bus request is served: its effect depends on the request alone, and the phase decides whether it has it. -/
theorem exec_bus_serves {i : Instr} (hi : i ≠ .reset) (s : State) : ∃ effect : State → State, exec i s = serve s effect := by
  cases i with
  | rdb a => exact ⟨fun s => answerByte (readByte a s), rfl⟩
  | wrb a v => exact ⟨fun s => respond .ack (writeByte a v s), rfl⟩
  | rdw a => exact ⟨fun s => answerWord (readWord a s), rfl⟩
  | wrw a v => exact ⟨fun s => respond .ack (writeWord a v s), rfl⟩
  | rdbn a => exact ⟨fun s => answerByte (ramRead s a, s), rfl⟩
  | wrbn a v => exact ⟨fun s => respond .ack (ramWrite a v s), rfl⟩
  | rdwn a => exact ⟨fun s => answerWord (joinBytes (ramRead s (nextAddr a)) (ramRead s a), s), rfl⟩
  | wrwn a v => exact ⟨fun s => respond .ack (ramWrite (nextAddr a) (highByte v) (ramWrite a (lowByte v) s)), rfl⟩
  | vrd a => exact ⟨fun s => answerByte (vicReadByte a s), rfl⟩
  | reset => exact absurd rfl hi

/-- Everything RESET can answer (R78, R91, R7). -/
theorem exec_reset_cases (s : State) :
    (s.phase = .unbuilt ∧ s.cfg.WellFormed ∧ exec .reset s = .next (construct s)) ∨
    (s.phase = .unbuilt ∧ ¬ s.cfg.WellFormed ∧ exec .reset s = .refused .illFormedConfig) ∨
    (s.phase = .ready ∧ exec .reset s = .next (refuse .alreadyBuilt s)) ∨
    (s.phase = .failed ∧ exec .reset s = .next (refuse .failed s)) := by
  simp only [exec, execReset]
  cases h : s.phase
  · by_cases hw : s.cfg.WellFormed
    · exact .inl ⟨rfl, hw, if_pos hw⟩
    · exact .inr (.inl ⟨rfl, hw, if_neg hw⟩)
  · exact .inr (.inr (.inl ⟨rfl, rfl⟩))
  · exact .inr (.inr (.inr ⟨rfl, rfl⟩))

@[simp] theorem wordRefusal_unbuilt (w : ReqWord) (r : RefusalReason) :
    wordRefusal w r .unbuilt = if namesReset w then r else .notBuilt := rfl
@[simp] theorem wordRefusal_ready (w : ReqWord) (r : RefusalReason) : wordRefusal w r .ready = r := rfl
@[simp] theorem wordRefusal_failed (w : ReqWord) (r : RefusalReason) : wordRefusal w r .failed = .failed := rfl

/-- OP is the number above bit 31, and RESET's is 0xF. -/
theorem namesReset_iff (w : ReqWord) : namesReset w = true ↔ w.toNat / 2 ^ 32 = 15 := by
  have hw := w.isLt
  have e : (fieldsOf w).op.toNat = w.toNat / 2 ^ 32 := by
    simp only [fieldsOf, BitVec.extractLsb'_toNat, Nat.shiftRight_eq_div_pow]
    omega
  rw [namesReset, beq_iff_eq, ← BitVec.toNat_inj, e]
  rfl

/-- Everything a step can answer: it idles, answers the decoded request, or refuses the word. -/
theorem step_cases (s : State) :
    (s.requests = [] ∧ step s = .next s) ∨
    (∃ w rest i, s.requests = w :: rest ∧ decode w = .ok i ∧ step s = exec i { s with requests := rest }) ∨
    (∃ w rest r, s.requests = w :: rest ∧ decode w = .error r ∧
      step s = .next (refuse (wordRefusal w r s.phase) { s with requests := rest })) := by
  cases hq : s.requests with
  | nil => exact .inl ⟨rfl, by simp [step, takeRequest, hq, idle]⟩
  | cons w rest =>
    cases hd : decode w with
    | ok i => exact .inr (.inl ⟨w, rest, i, rfl, hd, by simp [step, takeRequest, hq, hd]⟩)
    | error r => exact .inr (.inr ⟨w, rest, r, rfl, hd, by simp [step, takeRequest, hq, hd, refuseWord]⟩)

end Sys2Proof.Machine
end

