-- ==== Sys2Proof/Laws/Map.lean ====
section
/-! SUPPORT. What the decode of spec/20_memory.md gives under a well-formed address map (R7): a window's addresses are its own. -/

namespace Sys2Proof.Machine

/-- Disjoint windows have no address in common. -/
theorem not_right_of_left {w x : Window} (h : w.Disjoint x) {a : Addr} (hw : w.Has a) : ¬ x.Has a := by
  simp only [Window.Disjoint, Window.Has, BitVec.le_def, BitVec.lt_def] at *
  omega

theorem not_left_of_right {w x : Window} (h : w.Disjoint x) {a : Addr} (hx : x.Has a) : ¬ w.Has a := by
  simp only [Window.Disjoint, Window.Has, BitVec.le_def, BitVec.lt_def] at *
  omega

variable {m : AddressMap}

/-- CTRL_ADDR lies in none of the six windows. -/
theorem ctrl_outside (h : m.WellFormed) {w : Window} (hw : w ∈ m.switchedWindows) : ¬ w.Has m.ctrlAddr := (h.2.2.2.1 w hw).1

/-- TRIGGER_ADDR lies in none of the six windows. -/
theorem trigger_outside (h : m.WellFormed) {w : Window} (hw : w ∈ m.switchedWindows) : ¬ w.Has Parameters.triggerAddr :=
  (h.2.2.2.1 w hw).2

/-- An address of a switched window is not CTRL_ADDR. -/
theorem ne_ctrl_of_has (h : m.WellFormed) {w : Window} (hw : w ∈ m.switchedWindows) {a : Addr} (ha : w.Has a) : a ≠ m.ctrlAddr :=
  fun e => ctrl_outside h hw (e ▸ ha)

/-- An address of a switched window is not TRIGGER_ADDR. -/
theorem ne_trigger_of_has (h : m.WellFormed) {w : Window} (hw : w ∈ m.switchedWindows) {a : Addr} (ha : w.Has a) :
    a ≠ Parameters.triggerAddr := fun e => trigger_outside h hw (e ▸ ha)

/-- The six windows' pairwise disjointness, spelled out. -/
theorem windows_disjoint (h : m.WellFormed) :
    (m.vicWin.Disjoint m.sidWin ∧ m.vicWin.Disjoint m.cia1Win ∧ m.vicWin.Disjoint m.cia2Win ∧ m.vicWin.Disjoint m.basicWin ∧
      m.vicWin.Disjoint m.kernalWin) ∧
    (m.sidWin.Disjoint m.cia1Win ∧ m.sidWin.Disjoint m.cia2Win ∧ m.sidWin.Disjoint m.basicWin ∧ m.sidWin.Disjoint m.kernalWin) ∧
    (m.cia1Win.Disjoint m.cia2Win ∧ m.cia1Win.Disjoint m.basicWin ∧ m.cia1Win.Disjoint m.kernalWin) ∧
    (m.cia2Win.Disjoint m.basicWin ∧ m.cia2Win.Disjoint m.kernalWin) ∧ m.basicWin.Disjoint m.kernalWin := by
  have hd : m.switchedWindows.Pairwise Window.Disjoint := h.1
  simpa only [AddressMap.switchedWindows, List.pairwise_cons, List.mem_cons, List.not_mem_nil, or_false, forall_eq_or_imp, forall_eq,
    List.Pairwise.nil, and_true, false_imp_iff, implies_true] using hd

theorem readClass_ctrl (h : m.WellFormed) : readClass m m.ctrlAddr = .default := by
  unfold readClass
  rw [if_neg (ctrl_outside h (by simp)), if_neg (ctrl_outside h (by simp)), if_neg (ctrl_outside h (by simp)),
    if_neg (ctrl_outside h (by simp)), if_neg (ctrl_outside h (by simp))]

theorem readClass_trigger (h : m.WellFormed) : readClass m Parameters.triggerAddr = .default := by
  unfold readClass
  rw [if_neg (trigger_outside h (by simp)), if_neg (trigger_outside h (by simp)), if_neg (trigger_outside h (by simp)),
    if_neg (trigger_outside h (by simp)), if_neg (trigger_outside h (by simp))]

/-- TRIGGER_ADDR is not CTRL_ADDR: the one lies in the zero page and the other does not. -/
theorem trigger_ne_ctrl (h : m.WellFormed) : Parameters.triggerAddr ≠ m.ctrlAddr := by
  have hz : Parameters.zpWin.Has m.ctrlAddr := h.2.2.1
  intro e
  rw [← e] at hz
  exact absurd hz (by decide)

theorem writeClass_trigger (h : m.WellFormed) : writeClass m Parameters.triggerAddr = .default := by
  unfold writeClass
  rw [if_neg (trigger_ne_ctrl h), if_neg (trigger_outside h (by simp)), if_neg (trigger_outside h (by simp)),
    if_neg (trigger_outside h (by simp)), if_neg (trigger_outside h (by simp))]

theorem readClass_basic (h : m.WellFormed) {a : Addr} (ha : m.basicWin.Has a) : readClass m a = .basic := by
  obtain ⟨⟨-, -, -, h1, -⟩, -, ⟨-, h2, -⟩, ⟨h3, -⟩, -⟩ := windows_disjoint h
  unfold readClass
  rw [if_neg (not_left_of_right h1 ha), if_neg (not_left_of_right h2 ha), if_neg (not_left_of_right h3 ha), if_pos ha]

theorem readClass_kernal (h : m.WellFormed) {a : Addr} (ha : m.kernalWin.Has a) : readClass m a = .kernal := by
  obtain ⟨⟨-, -, -, -, h1⟩, -, ⟨-, -, h2⟩, ⟨-, h3⟩, h4⟩ := windows_disjoint h
  unfold readClass
  rw [if_neg (not_left_of_right h1 ha), if_neg (not_left_of_right h2 ha), if_neg (not_left_of_right h3 ha), if_neg (not_left_of_right h4 ha), if_pos ha]

theorem readClass_sid (h : m.WellFormed) {a : Addr} (ha : m.sidWin.Has a) : readClass m a = .default := by
  obtain ⟨⟨h1, -⟩, ⟨h2, h3, h4, h5⟩, -⟩ := windows_disjoint h
  unfold readClass
  rw [if_neg (not_left_of_right h1 ha), if_neg (not_right_of_left h2 ha), if_neg (not_right_of_left h3 ha), if_neg (not_right_of_left h4 ha), if_neg (not_right_of_left h5 ha)]

/-- Read decode names the peripheral whose window holds the address, but for the sound chip. -/
theorem readClass_peripheral (h : m.WellFormed) {d : Device} (hd : d ≠ .sid) {a : Addr} (ha : (d.window m).Has a) :
    readClass m a = .peripheral d := by
  obtain ⟨⟨-, h1, h2, -, -⟩, -, ⟨h3, -, -⟩, -⟩ := windows_disjoint h
  unfold readClass
  cases d with
  | vic => exact if_pos ha
  | cia1 => rw [if_neg (not_left_of_right h1 ha)]; exact if_pos ha
  | cia2 => rw [if_neg (not_left_of_right h2 ha), if_neg (not_left_of_right h3 ha)]; exact if_pos ha
  | sid => exact absurd rfl hd

/-- Write decode names the peripheral whose window holds the address. -/
theorem writeClass_peripheral (h : m.WellFormed) {d : Device} {a : Addr} (ha : (d.window m).Has a) :
    writeClass m a = .peripheral d := by
  obtain ⟨⟨h4, h1, h2, -, -⟩, ⟨h5, h6, -, -⟩, ⟨h3, -, -⟩, -⟩ := windows_disjoint h
  unfold writeClass
  cases d with
  | vic => rw [if_neg (ne_ctrl_of_has h (by simp [Device.window]) ha)]; exact if_pos ha
  | cia1 => rw [if_neg (ne_ctrl_of_has h (by simp [Device.window]) ha), if_neg (not_left_of_right h1 ha)]; exact if_pos ha
  | cia2 =>
    rw [if_neg (ne_ctrl_of_has h (by simp [Device.window]) ha), if_neg (not_left_of_right h2 ha), if_neg (not_left_of_right h3 ha)]; exact if_pos ha
  | sid =>
    rw [if_neg (ne_ctrl_of_has h (by simp [Device.window]) ha), if_neg (not_left_of_right h4 ha), if_neg (not_right_of_left h5 ha), if_neg (not_right_of_left h6 ha)]
    exact if_pos ha

/-- A store to the BASIC or the KERNAL window has the default class. -/
theorem writeClass_overlay (h : m.WellFormed) {a : Addr} (ha : m.basicWin.Has a ∨ m.kernalWin.Has a) : writeClass m a = .default := by
  obtain ⟨⟨-, -, -, b1, k1⟩, ⟨-, -, b2, k2⟩, ⟨-, b3, k3⟩, ⟨b4, k4⟩, -⟩ := windows_disjoint h
  unfold writeClass
  rcases ha with ha | ha
  · rw [if_neg (ne_ctrl_of_has h (by simp) ha), if_neg (not_left_of_right b1 ha), if_neg (not_left_of_right b3 ha), if_neg (not_left_of_right b4 ha),
      if_neg (not_left_of_right b2 ha)]
  · rw [if_neg (ne_ctrl_of_has h (by simp) ha), if_neg (not_left_of_right k1 ha), if_neg (not_left_of_right k3 ha), if_neg (not_left_of_right k4 ha),
      if_neg (not_left_of_right k2 ha)]

end Sys2Proof.Machine
end

