-- ==== Sys2Proof/Laws/Operands.lean ====
section
/-! SUPPORT. Bytes of a word and fields of a request word as numbers, and that taking apart and putting together undo each other. -/

namespace Sys2Proof.Machine

/-- Concatenation as arithmetic. -/
theorem append_toNat {m n : Nat} (x : BitVec m) (y : BitVec n) : (x ++ y).toNat = x.toNat * 2 ^ n + y.toNat := by
  rw [BitVec.toNat_append, ← Nat.shiftLeft_add_eq_or_of_lt y.isLt, Nat.shiftLeft_eq]

theorem lowByte_toNat (v : Word) : (lowByte v).toNat = v.toNat % 2 ^ 8 := by simp [lowByte, BitVec.extractLsb'_toNat]

theorem highByte_toNat (v : Word) : (highByte v).toNat = v.toNat / 2 ^ 8 := by
  have := v.isLt
  simp only [highByte, BitVec.extractLsb'_toNat, Nat.shiftRight_eq_div_pow]
  omega

theorem joinBytes_toNat (hi lo : Byte) : (joinBytes hi lo).toNat = hi.toNat * 2 ^ 8 + lo.toNat := append_toNat hi lo

@[simp] theorem lowByte_joinBytes (hi lo : Byte) : lowByte (joinBytes hi lo) = lo := by
  apply BitVec.eq_of_toNat_eq
  rw [lowByte_toNat, joinBytes_toNat]
  have := lo.isLt
  omega

@[simp] theorem highByte_joinBytes (hi lo : Byte) : highByte (joinBytes hi lo) = hi := by
  apply BitVec.eq_of_toNat_eq
  rw [highByte_toNat, joinBytes_toNat]
  have := lo.isLt
  omega

@[simp] theorem joinBytes_high_low (v : Word) : joinBytes (highByte v) (lowByte v) = v := by
  apply BitVec.eq_of_toNat_eq
  rw [joinBytes_toNat, highByte_toNat, lowByte_toNat]
  omega

theorem nextAddr_ne (a : Addr) : nextAddr a ≠ a := by
  intro h
  simp only [nextAddr] at h
  bv_omega

end Sys2Proof.Machine

namespace Sys2Proof

theorem packFields_toNat (f : ReqFields) : (packFields f).toNat = f.op.toNat * 2 ^ 32 + f.addr.toNat * 2 ^ 16 + f.data.toNat := by
  obtain ⟨op, a, d⟩ := f
  show ((op ++ a ++ d).cast _).toNat = _
  rw [BitVec.toNat_cast, Machine.append_toNat, Machine.append_toNat]
  ring

theorem fieldsOf_toNat (w : ReqWord) :
    (fieldsOf w).op.toNat = w.toNat / 2 ^ 32 ∧ (fieldsOf w).addr.toNat = w.toNat / 2 ^ 16 % 2 ^ 16 ∧
    (fieldsOf w).data.toNat = w.toNat % 2 ^ 16 := by
  have := w.isLt
  simp [fieldsOf, BitVec.extractLsb'_toNat, Nat.shiftRight_eq_div_pow]
  omega

/-- The fields of a packed word are the fields packed. -/
@[simp] theorem fieldsOf_packFields (f : ReqFields) : fieldsOf (packFields f) = f := by
  obtain ⟨h1, h2, h3⟩ := fieldsOf_toNat (packFields f)
  rw [packFields_toNat] at h1 h2 h3
  have a1 := f.op.isLt
  have a2 := f.addr.isLt
  have a3 := f.data.isLt
  have e1 := BitVec.eq_of_toNat_eq (h1.trans (by omega : _ = f.op.toNat))
  have e2 := BitVec.eq_of_toNat_eq (h2.trans (by omega : _ = f.addr.toNat))
  have e3 := BitVec.eq_of_toNat_eq (h3.trans (by omega : _ = f.data.toNat))
  cases f
  cases h : fieldsOf (packFields _)
  simp_all

/-- A word is its fields packed. -/
@[simp] theorem packFields_fieldsOf (w : ReqWord) : packFields (fieldsOf w) = w := by
  apply BitVec.eq_of_toNat_eq
  obtain ⟨h1, h2, h3⟩ := fieldsOf_toNat w
  rw [packFields_toNat, h1, h2, h3]
  omega

theorem byteData_toNat (v : Byte) : (byteData v).toNat = v.toNat := by
  unfold byteData
  rw [Machine.append_toNat]
  simp

end Sys2Proof
end

