-- ==== Sys2Proof/Laws/PerInstr.lean ====
section
/-! SUPPORT. The family EncodingRow: the word of every request lies in its row of spec/opcode_table.json, that is, it has the row's opcode
and every bit the row fixes at zero is zero. One lemma per constructor. -/

namespace Sys2Proof.Laws.EncodingRow

/-- R50: the opcode of a request's row. -/
def opcode : Instr → Nat
  | .rdb _ => 0x0
  | .wrb _ _ => 0x1
  | .rdw _ => 0x2
  | .wrw _ _ => 0x3
  | .rdbn _ => 0x4
  | .wrbn _ _ => 0x5
  | .rdwn _ => 0x6
  | .wrwn _ _ => 0x7
  | .vrd _ => 0x8
  | .reset => 0xF

/-- R50: how many values the DATA field of a request's row can take, its other bits being zero. -/
def dataValues : Instr → Nat
  | .rdb _ => 1
  | .wrb _ _ => 2 ^ 8
  | .rdw _ => 1
  | .wrw _ _ => 2 ^ 16
  | .rdbn _ => 1
  | .wrbn _ _ => 2 ^ 8
  | .rdwn _ => 1
  | .wrwn _ _ => 2 ^ 16
  | .vrd _ => 1
  | .reset => 1

/-- The encoding of a request has its row's opcode and no bit of DATA beyond those the row lets vary. -/
def Statement (i : Instr) : Prop := (encode i).toNat / 2 ^ 32 = opcode i ∧ (encode i).toNat % 2 ^ 16 < dataValues i

/-- The two numbers of a packed word. -/
theorem pack_parts (op : BitVec 4) (a : Addr) (d : Word) :
    (packFields ⟨op, a, d⟩).toNat / 2 ^ 32 = op.toNat ∧ (packFields ⟨op, a, d⟩).toNat % 2 ^ 16 = d.toNat := by
  rw [packFields_toNat]
  dsimp only
  have := op.isLt
  have := a.isLt
  have := d.isLt
  omega

theorem rdb (a : Addr) : Statement (.rdb a) := by
  obtain ⟨h1, h2⟩ := pack_parts 0x0 a 0
  exact ⟨h1, Nat.lt_of_le_of_lt (Nat.le_of_eq h2) Nat.one_pos⟩
theorem wrb (a : Addr) (v : Byte) : Statement (.wrb a v) := by
  obtain ⟨h1, h2⟩ := pack_parts 0x1 a (byteData v)
  exact ⟨h1, Nat.lt_of_le_of_lt (Nat.le_of_eq (h2.trans (byteData_toNat v))) v.isLt⟩
theorem rdw (a : Addr) : Statement (.rdw a) := by
  obtain ⟨h1, h2⟩ := pack_parts 0x2 a 0
  exact ⟨h1, Nat.lt_of_le_of_lt (Nat.le_of_eq h2) Nat.one_pos⟩
theorem wrw (a : Addr) (v : Word) : Statement (.wrw a v) := by
  obtain ⟨h1, h2⟩ := pack_parts 0x3 a v
  exact ⟨h1, Nat.lt_of_le_of_lt (Nat.le_of_eq h2) v.isLt⟩
theorem rdbn (a : Addr) : Statement (.rdbn a) := by
  obtain ⟨h1, h2⟩ := pack_parts 0x4 a 0
  exact ⟨h1, Nat.lt_of_le_of_lt (Nat.le_of_eq h2) Nat.one_pos⟩
theorem wrbn (a : Addr) (v : Byte) : Statement (.wrbn a v) := by
  obtain ⟨h1, h2⟩ := pack_parts 0x5 a (byteData v)
  exact ⟨h1, Nat.lt_of_le_of_lt (Nat.le_of_eq (h2.trans (byteData_toNat v))) v.isLt⟩
theorem rdwn (a : Addr) : Statement (.rdwn a) := by
  obtain ⟨h1, h2⟩ := pack_parts 0x6 a 0
  exact ⟨h1, Nat.lt_of_le_of_lt (Nat.le_of_eq h2) Nat.one_pos⟩
theorem wrwn (a : Addr) (v : Word) : Statement (.wrwn a v) := by
  obtain ⟨h1, h2⟩ := pack_parts 0x7 a v
  exact ⟨h1, Nat.lt_of_le_of_lt (Nat.le_of_eq h2) v.isLt⟩
theorem vrd (a : Addr) : Statement (.vrd a) := by
  obtain ⟨h1, h2⟩ := pack_parts 0x8 a 0
  exact ⟨h1, Nat.lt_of_le_of_lt (Nat.le_of_eq h2) Nat.one_pos⟩
theorem reset : Statement .reset := by
  obtain ⟨h1, h2⟩ := pack_parts 0xF 0 0
  exact ⟨h1, Nat.lt_of_le_of_lt (Nat.le_of_eq h2) Nat.one_pos⟩

end Sys2Proof.Laws.EncodingRow
end

