-- ==== Sys2Proof/Tests/Slice0.lean ====
section
/-! SUPPORT. Tests, each from a vector of spec/95_test_vectors.md (named in its comment), the smoke tests of the well-formedness checks,
and a witness for the hypotheses of every statement that has some. -/

namespace Sys2Proof.Tests

open Sys2Proof Sys2Proof.Machine

/-! ### Small states -/

/-- R6's values, with the payloads and END_PTR_ADDR = 0x002D of the vectors' configuration T; no images, since the planes below are
written out. -/
def cfgT (payloads : List Payload) : Config where
  map := Parameters.r6
  basicImg := []
  charImg := []
  kernalImg := []
  romPatches := []
  ramPayloads := payloads
  endPtrAddr := 0x002D

/-- The vectors' state S0, its ROM plane cut down to the bytes the tests read. -/
def s0 : State where
  cfg := cfgT []
  phase := .ready
  ram := [(0x0001, 0x07)]
  rom := [(0xA000, 0xB0), (0xD000, 0xC0), (0xD008, 0xC8), (0xD012, 0xD2), (0xE001, 0xE1), (0xFFFF, 0xDF)]
  latch := 0x07
  trace := []
  responses := []
  requests := []
  devAnswers := []
  vicBases := []
  draws := 0

/-- S0 with payloads. -/
def s0With (payloads : List Payload) : State := { s0 with cfg := cfgT payloads }

/-- A machine before construction. -/
def unbuilt : State := { s0 with phase := .unbuilt }

/-- A machine whose construction failed. -/
def failed : State := { s0 with phase := .failed }

/-- A view of the next state an outcome answers. -/
def seen {α : Type} (o : Host.Outcome State Fault Refusal) (view : State → α) : Option α :=
  match o with
  | .next t => some (view t)
  | .fault _ => none
  | .refused _ => none

/-! ### Decoding: a word of every constructor, written out from R50's table (V-E1 to V-E10) -/

theorem test_decode_rdb : decode 0b000010100000000000000000000000000000#36 = .ok (.rdb 0xA000) := by decide
theorem test_decode_wrb : decode 0b000100000000000000010000000000110111#36 = .ok (.wrb 0x0001 0x37) := by decide
theorem test_decode_rdw : decode 0b001011111111111111000000000000000000#36 = .ok (.rdw 0xFFFC) := by decide
theorem test_decode_wrw : decode 0b001111000000000000000001001000110100#36 = .ok (.wrw 0xC000 0x1234) := by decide
theorem test_decode_rdbn : decode 0b010000000000000000010000000000000000#36 = .ok (.rdbn 0x0001) := by decide
theorem test_decode_wrbn : decode 0b010100000001001110010000000011111111#36 = .ok (.wrbn 0x0139 0xFF) := by decide
theorem test_decode_rdwn : decode 0b011000000000001011010000000000000000#36 = .ok (.rdwn 0x002D) := by decide
theorem test_decode_wrwn : decode 0b011100000000001011010000100100000000#36 = .ok (.wrwn 0x002D 0x0900) := by decide
theorem test_decode_vrd : decode 0b100000010000000010000000000000000000#36 = .ok (.vrd 0x1008) := by decide
theorem test_decode_reset : decode 0b111100000000000000000000000000000000#36 = .ok .reset := by decide

/-- V-E11 to V-E17 and V-E19. -/
theorem test_decode_refuses :
    decode 0x900000000 = .error (.reservedOp 0x9) ∧ decode 0xE12345678 = .error (.reservedOp 0xE) ∧
    decode 0x0A0000001 = .error .reservedField ∧ decode 0x1C0000100 = .error .reservedField ∧
    decode 0x5C0000100 = .error .reservedField ∧ decode 0xF00010000 = .error .reservedField ∧
    decode 0xF00000001 = .error .reservedField ∧ decode 0x810080001 = .error .reservedField := by decide

/-! ### Smoke tests: each well-formedness check refuses a term it should -/

theorem test_wf_reserved_low : ¬ (ReqFields.mk 0x9 0 0).WellFormed := by decide
theorem test_wf_reserved_high : ¬ (ReqFields.mk 0xE 0 0).WellFormed := by decide
theorem test_wf_read_with_data : ¬ (ReqFields.mk 0x8 0x1008 1).WellFormed := by decide
theorem test_wf_byte_write_with_high_data : ¬ (ReqFields.mk 0x5 0xC000 0x0100).WellFormed := by decide
theorem test_wf_reset_with_addr : ¬ (ReqFields.mk 0xF 1 0).WellFormed := by decide
theorem test_wf_reset_with_data : ¬ (ReqFields.mk 0xF 0 1).WellFormed := by decide
theorem test_wf_accepts : (ReqFields.mk 0x3 0xC000 0xFFFF).WellFormed := by decide
theorem test_config_overlap : ¬ { Parameters.r6 with sidWin := ⟨0xD3FF, 0xD7FF⟩ }.WindowsDisjoint := by decide
theorem test_config_outside_chario : ¬ { Parameters.r6 with charIoWin := ⟨0xD000, 0xDDFE⟩ }.PeripheralsInsideCharIo := by decide
theorem test_config_ctrl_not_zero_page : ¬ { Parameters.r6 with ctrlAddr := 0x0100 }.CtrlInZeroPage := by decide
theorem test_config_trigger_in_window : ¬ { Parameters.r6 with basicWin := ⟨0x0139, 0x0139⟩ }.SpecialsOutsideWindows := by decide
theorem test_config_same_bits : ¬ { Parameters.r6 with charenBit := 1 }.LatchBitsDistinct := by decide
theorem test_config_bit_out_of_range : ¬ { Parameters.r6 with charenBit := 8 }.LatchBitsDistinct := by decide
theorem test_config_image_too_high : ¬ { Parameters.r6 with kernalBase := 0xE001 }.ImagesFit := by decide
theorem test_config_end_ptr : ¬ { cfgT [] with endPtrAddr := 0x00FF }.EndPtrInZeroPage := by decide
theorem test_config_two_programs : ¬ (cfgT [.program 0 0 [], .program 0 0 []]).AtMostOneProgram := by decide
theorem test_config_accepts : (cfgT [.monitor 0xC000 [0xA9], .program 1 8 []]).WellFormed := by decide

/-! ### The requests -/

/-- V-B2, first read: BASIC ROM. -/
theorem test_rdb_rom : seen (exec (.rdb 0xA000) s0) State.responses = some [.data 0x00B0] := by decide
/-- V-B12, first read: the video chip answers 0x37. -/
theorem test_rdb_device : seen (exec (.rdb 0xD012) { s0 with devAnswers := [0x37] }) (fun t => (t.responses, t.trace)) =
    some ([.data 0x0037], [.prd .vic 0x12 0x37]) := by decide
/-- V-B4. -/
theorem test_wrb_device : seen (exec (.wrb 0xD020 0x0E) s0) (fun t => (t.trace, t.ram)) = some ([.pwr .vic 0x20 0x0E], s0.ram) := by decide
/-- V-R9: a program image whose copy and whose end pointer wrap. -/
theorem test_wrb_trigger_program :
    seen (exec (.wrb 0x0139 0xFF) (s0With [.program 0xFE 0xFF [0x01, 0x02, 0x03]])) (fun t => (t.trace, t.ram)) =
    some ([.hook], [(0x0000, 0x03), (0x0001, 0x07), (0x002D, 0x01), (0xFFFE, 0x01), (0xFFFF, 0x02)]) := by decide
/-- V-W3: the second byte of a word at 0xFFFF. -/
theorem test_rdw_wrap : seen (exec (.rdw 0xFFFF) s0) State.responses = some [.data 0x00DF] := by decide
/-- V-W13, the read: only the low byte reaches a device. -/
theorem test_rdw_device_then_ram : seen (exec (.rdw 0xD3FF) { s0 with devAnswers := [0x5A, 0xA5] }) (fun t => (t.responses, t.trace)) =
    some ([.data 0x005A], [.prd .vic 0x7F 0x5A]) := by decide
/-- V-W8: the high byte loads the latch. -/
theorem test_wrw_loads_latch : seen (exec (.wrw 0x0000 0x0500) s0) (fun t => (t.latch, t.mode, t.ram)) =
    some (0x05, ⟨.ram, .ram, .io⟩, [(0x0001, 0x05)]) := by decide
/-- V-W11: the hook runs before the high byte is stored. -/
theorem test_wrw_trigger : seen (exec (.wrw 0x0139 0x77FF) (s0With [.monitor 0x013A [0x11]])) (fun t => (ramRead t 0x013A, t.trace)) =
    some (0x77, [.hook]) := by decide
/-- V-N3: RAM under ROM. -/
theorem test_rdbn_under_rom : seen (exec (.rdbn 0xE000) s0) State.responses = some [.data 0x0000] := by decide
/-- V-B17 and V-N1: the read back of the latch's backing byte. -/
theorem test_rdbn_ctrl : seen (exec (.rdbn 0x0001) s0) State.responses = some [.data 0x0007] := by decide
/-- V-N1: no set_config. -/
theorem test_wrbn_ctrl : seen (exec (.wrbn 0x0001 0x00) s0) (fun t => (t.mode, t.ram)) = some (⟨.rom, .rom, .io⟩, [(0x0001, 0x00)]) := by decide
/-- V-N6: no hook, and 0xFF at an odd address is what the plane reads as unlisted. -/
theorem test_wrbn_trigger : seen (exec (.wrbn 0x0139 0xFF) s0) (fun t => (t.trace, t.ram)) = some ([], s0.ram) := by decide
/-- V-W12, the last read: the no-I/O word wraps. -/
theorem test_rdwn_wrap : seen (exec (.rdwn 0xFFFF) { s0 with ram := [(0x0000, 0xAB), (0x0001, 0x07), (0xFFFF, 0xCD)] }) State.responses =
    some [.data 0xABCD] := by decide
/-- V-N4, the write. -/
theorem test_wrwn_wrap : seen (exec (.wrwn 0xFFFF 0x1234) s0) State.ram = some [(0x0000, 0x12), (0x0001, 0x07), (0xFFFF, 0x34)] := by decide
/-- V-N5. -/
theorem test_wrwn_ctrl : seen (exec (.wrwn 0x0000 0x0000) s0) (fun t => (t.latch, t.ram)) = some (0x07, [(0x0001, 0x00)]) := by decide
/-- V-V1 and V-V8: the two ignored address bits. -/
theorem test_vrd_override : seen (exec (.vrd 0xD008) { s0 with vicBases := [0x0000] }) (fun t => (t.responses, t.trace)) =
    some ([.data 0x00C8], [.vbase 0x0000]) := by decide
/-- V-V7: the sum wraps into an override window. -/
theorem test_vrd_wrap : seen (exec (.vrd 0x2000) { s0 with vicBases := [0xF000] }) State.responses = some [.data 0x00C0] := by decide
/-- V-R4: a BASIC image of 0 bytes. -/
theorem test_reset_wrong_size : seen (exec .reset unbuilt) (fun t => (t.phase, t.responses)) =
    some (.failed, [.failed (.romImageSize .basic 0)]) := by decide
/-- V-E22. -/
theorem test_reset_when_ready : seen (exec .reset s0) (fun t => (t.phase, t.responses, t.ram)) =
    some (.ready, [.refused .alreadyBuilt], s0.ram) := by decide
/-- V-E21, V-E23, V-E24. -/
theorem test_refused_by_phase :
    seen (exec (.rdb 0x0000) unbuilt) State.responses = some [.refused .notBuilt] ∧
    seen (exec (.rdb 0x0000) failed) State.responses = some [.refused .failed] ∧
    seen (exec .reset failed) State.responses = some [.refused .failed] := by decide
/-- V-E11 as a step: the machine goes on. -/
theorem test_step_reserved : seen (step { s0 with requests := [0x900000000, 0x0A0000000] }) (fun t => (t.responses, t.requests)) =
    some ([.refused (.reservedOp 0x9)], [0x0A0000000]) := by decide
/-- R91, D32: in UNBUILT a reserved opcode and a nonzero reserved field are refused as NOT_BUILT, on RESET as its field (V-E16, V-E17). -/
theorem test_step_unbuilt_reserved :
    seen (step { unbuilt with requests := [0x900000000] }) State.responses = some [.refused .notBuilt] ∧
    seen (step { unbuilt with requests := [0x0A0000001] }) State.responses = some [.refused .notBuilt] ∧
    seen (step { unbuilt with requests := [0xF00010000] }) State.responses = some [.refused .reservedField] ∧
    seen (step { unbuilt with requests := [0xF00000001] }) State.responses = some [.refused .reservedField] := by decide
/-- R90: in FAILED a reserved opcode and a nonzero reserved field are refused as FAILED too. -/
theorem test_step_failed_reserved :
    seen (step { failed with requests := [0x900000000] }) State.responses = some [.refused .failed] ∧
    seen (step { failed with requests := [0xF00010000] }) State.responses = some [.refused .failed] := by decide
/-- V-E25 and R53: letter case, prefix, blanks and comment do not matter. -/
theorem test_assemble : assemble "  CPU: wrb $d020 ,#$0E;x".toList = some (.wrb 0xD020 0x0E) := by decide
/-- R53: a byte where a word belongs, a missing comma, and a request over two lines ("one request per line"). -/
theorem test_assemble_refuses :
    assemble "WRW $D020, #$0E".toList = none ∧ assemble "WRB $D020 #$0E".toList = none ∧ assemble "RDB\n$E001".toList = none := by decide

/-- The first step after reset answers each row's request; a RESET there is answered with the refusal ALREADY_BUILT (V-E22). -/
theorem test_first_step_after_reset :
    ∀ w ∈ [0x0A0000000, 0x100010037, 0x1013900FF, 0x2FFFC0000, 0x3C0001234, 0x400010000, 0x5013900FF, 0x6002D0000, 0x7002D0900, 0x810080000,
      0xF00000000], (seen (step (State.reset.withFetchWord 36 w)) State.phase) = some .ready := by decide

/-! ### The machine behind `core`, and RESET giving the state that `State.reset` is -/

theorem test_core_step : Sys2Proof.core.step = step := rfl

/-- R101: RESET of an unbuilt machine with the board's configuration and nothing answered gives State.reset. -/
theorem test_reset_gives_reset_state (h : Config.board.WellFormed) (hs : Config.board.SizesRight) :
    exec .reset { State.reset with phase := .unbuilt, responses := [] } = .next State.reset := by
  rcases exec_reset_cases { State.reset with phase := .unbuilt, responses := [] } with ⟨_, _, e⟩ | ⟨_, h', _⟩ | ⟨h', _⟩ | ⟨h', _⟩
  · rw [e]
    rcases construct_cases { State.reset with phase := .unbuilt, responses := [] } with ⟨_, _, h', _⟩ | ⟨_, e⟩
    · exact absurd ((wrongSize_none_iff Config.board).2 hs) (by rw [show wrongSize Config.board = _ from h']; simp)
    · rw [e]; rfl
  · exact absurd h h'
  · exact absurd h' (by simp)
  · exact absurd h' (by simp)

/-! ### Witnesses: the hypotheses of each statement, met together -/

/-- Images of the right sizes. -/
def cfgFull : Config := { cfgT [] with
  basicImg := List.replicate 8192 0, charImg := List.replicate 4096 0, kernalImg := List.replicate 8192 0 }

/-- A machine that can be constructed. -/
def buildable : State := { unbuilt with cfg := cfgFull }

theorem cfgFull_sizesRight : cfgFull.SizesRight :=
  ⟨List.length_replicate, List.length_replicate, List.length_replicate⟩

theorem witness_StepAnswersDecodedRequest :
    ({ s0 with requests := [0x0A0000000] } : State).requests = 0x0A0000000 :: [] ∧ decode 0x0A0000000 = .ok (.rdb 0xA000) := by decide
theorem witness_StepRefusesUndecodedWord :
    ({ s0 with requests := [0x900000000] } : State).requests = 0x900000000 :: [] ∧
    decode 0x900000000 = .error (.reservedOp 0x9) ∧ failed.phase = .failed ∧
    (unbuilt.phase = .unbuilt ∧ (0xE12345678#36).toNat / 2 ^ 32 ≠ 15 ∧ decode 0xE12345678 = .error (.reservedOp 0xE)) ∧
    ((0xF00010000#36).toNat / 2 ^ 32 = 15 ∧ decode 0xF00010000 = .error .reservedField) := by decide
theorem witness_StepWithoutRequestIdles : s0.requests = [] := rfl
/-- Every clause at the ends of its range. -/
theorem witness_ReservedEncodingsRefused :
    (0x900000000#36).toNat / 2 ^ 32 = 9 ∧ (0xEFFFFFFFF#36).toNat / 2 ^ 32 = 14 ∧
    ((0x0A0000001#36).toNat / 2 ^ 32 = 0 ∧ (0x0A0000001#36).toNat % 2 ^ 16 ≠ 0) ∧
    ((0x80000FFFF#36).toNat / 2 ^ 32 = 8 ∧ (0x80000FFFF#36).toNat % 2 ^ 16 ≠ 0) ∧
    ((0x1C0000100#36).toNat / 2 ^ 32 = 1 ∧ (0x1C0000100#36).toNat % 2 ^ 16 / 2 ^ 8 ≠ 0) ∧
    ((0x5C000FF00#36).toNat / 2 ^ 32 = 5 ∧ (0x5C000FF00#36).toNat % 2 ^ 16 / 2 ^ 8 ≠ 0) ∧
    ((0xF00010000#36).toNat / 2 ^ 32 = 15 ∧ (0xF00010000#36).toNat / 2 ^ 16 % 2 ^ 16 ≠ 0) ∧
    ((0xF00000001#36).toNat / 2 ^ 32 = 15 ∧ (0xF00000001#36).toNat % 2 ^ 16 ≠ 0) ∧
    ((0x8FFFF0000#36).toNat / 2 ^ 32 = 8 ∧ (0x8FFFF0000#36).toNat % 2 ^ 16 = 0) ∧
    ((0x5C00000FF#36).toNat / 2 ^ 32 = 5 ∧ (0x5C00000FF#36).toNat % 2 ^ 16 / 2 ^ 8 = 0) ∧
    (0x3FFFFFFFF#36).toNat / 2 ^ 32 = 3 ∧ (0x700000000#36).toNat / 2 ^ 32 = 7 ∧
    ((0xF00000000#36).toNat / 2 ^ 32 = 15 ∧ (0xF00000000#36).toNat % 2 ^ 32 = 0) := by decide
theorem witness_DecodeEncodeAgree : decode 0x8D0080000 = .ok (.vrd 0xD008) := by decide
/-- A byte of each row, its uninterpreted bits at both extremes. -/
theorem witness_ModeTableEightCases :
    (0xF8#8).extractLsb' 0 3 = 0 ∧ (0x04#8).extractLsb' 0 3 = 4 ∧ (0x01#8).extractLsb' 0 3 = 1 ∧ (0x35#8).extractLsb' 0 3 = 5 ∧
    (0x02#8).extractLsb' 0 3 = 2 ∧ (0x36#8).extractLsb' 0 3 = 6 ∧ (0xFB#8).extractLsb' 0 3 = 3 ∧ (0xFF#8).extractLsb' 0 3 = 7 := by decide
/-- Every range at both ends. -/
theorem witness_AddressMapRanges :
    (0x0001#16).toNat = 0x0001 ∧ ((0x9FFF#16).toNat ≤ 0x9FFF ∧ (0x0000#16).toNat ≠ 0x0001) ∧
    (0xA000 ≤ (0xA000#16).toNat ∧ (0xBFFF#16).toNat ≤ 0xBFFF) ∧ (0xC000 ≤ (0xC000#16).toNat ∧ (0xCFFF#16).toNat ≤ 0xCFFF) ∧
    (0xD000 ≤ (0xD000#16).toNat ∧ (0xD3FF#16).toNat ≤ 0xD3FF) ∧ (0xD400 ≤ (0xD400#16).toNat ∧ (0xD7FF#16).toNat ≤ 0xD7FF) ∧
    (0xD800 ≤ (0xD800#16).toNat ∧ (0xDBFF#16).toNat ≤ 0xDBFF) ∧ (0xDC00 ≤ (0xDC00#16).toNat ∧ (0xDCFF#16).toNat ≤ 0xDCFF) ∧
    (0xDD00 ≤ (0xDD00#16).toNat ∧ (0xDDFF#16).toNat ≤ 0xDDFF) ∧ (0xDE00 ≤ (0xDE00#16).toNat ∧ (0xDFFF#16).toNat ≤ 0xDFFF) ∧
    0xE000 ≤ (0xE000#16).toNat ∧ 0xE000 ≤ (0xFFFF#16).toNat := by decide
theorem witness_ControlWriteLoadsLatch : s0.phase = .ready := rfl
theorem witness_ControlReadReturnsRam : s0.cfg.map.WellFormed ∧ s0.phase = .ready := by decide
theorem witness_NoIoControlWriteKeepsMode : s0.cfg.map.WellFormed ∧ s0.phase = .ready := by decide
/-- Every window, at an end of each. -/
theorem witness_ControlWriteGovernsNextRead :
    s0.cfg.map.WellFormed ∧ s0.phase = .ready ∧ s0.cfg.map.basicWin.Has 0xBFFF ∧ s0.cfg.map.kernalWin.Has 0xFFFF ∧
    (Device.vic ≠ .sid ∧ (Device.vic.window s0.cfg.map).Has 0xD3FF) ∧ (Device.cia1 ≠ .sid ∧ (Device.cia1.window s0.cfg.map).Has 0xDC00) ∧
    (Device.cia2 ≠ .sid ∧ (Device.cia2.window s0.cfg.map).Has 0xDDFF) := by decide
theorem witness_WrbnStoresOneRamByte : s0.phase = .ready ∧ (0x0000#16) ≠ 0xFFFF := by decide
theorem witness_RdbnReturnsRam : s0.phase = .ready := rfl
theorem witness_WrwnStoresTwoRamBytes : s0.phase = .ready ∧ (0x0001#16) ≠ 0xFFFF ∧ (0x0001#16) ≠ 0xFFFF + 1 := by decide
theorem witness_RdwnReturnsRamWord : s0.phase = .ready := rfl
theorem witness_RoutedReadByClass : s0.phase = .ready := rfl
theorem witness_RoutedWriteByClass : s0.phase = .ready := rfl
/-- A device write and a trigger store. -/
theorem witness_RoutedWriteFrame :
    s0.phase = .ready ∧ (0xD7FF#16) ≠ s0.cfg.map.ctrlAddr ∧ ¬ ((0xD7FF#16) = 0x0139 ∧ (0xFF#8) = 0xFF) := by decide
theorem witness_ReadFrame :
    s0.phase = .ready ∧ Instr.rdw 0xD3FF ∈ [Instr.rdb 0xD3FF, .rdw 0xD3FF, .rdbn 0xD3FF, .rdwn 0xD3FF, .vrd 0xD3FF] := by decide
theorem witness_SoundWindowReadsRam :
    s0.cfg.map.WellFormed ∧ s0.phase = .ready ∧ s0.cfg.map.sidWin.Has 0xD400 ∧ s0.cfg.map.sidWin.Has 0xD7FF := by decide
/-- Every clause: BASIC, KERNAL and video windows in ROM mode, an address outside the five windows, the sound window in IO mode. -/
theorem witness_WriteUnderRomReachesRam :
    s0.cfg.map.WellFormed ∧ s0.phase = .ready ∧ (s0.cfg.map.basicWin.Has 0xA000 ∧ s0.mode.basic = .rom) ∧
    (s0.cfg.map.kernalWin.Has 0xFFFF ∧ s0.mode.kernal = .rom) ∧
    (s0.cfg.map.vicWin.Has 0xD3FF ∧ ({ s0 with latch := 0x03 } : State).mode.chario = .rom) ∧
    (¬ s0.cfg.map.vicWin.Has 0xDE00 ∧ ¬ s0.cfg.map.cia1Win.Has 0xDE00 ∧ ¬ s0.cfg.map.cia2Win.Has 0xDE00 ∧
      ¬ s0.cfg.map.basicWin.Has 0xDE00 ∧ ¬ s0.cfg.map.kernalWin.Has 0xDE00) ∧
    s0.cfg.map.sidWin.Has 0xD400 ∧ s0.mode.chario = .io := by decide
theorem witness_WordWriteIsTwoByteWrites : s0.phase = .ready := rfl
theorem witness_WordReadIsTwoByteReads : s0.phase = .ready := rfl
theorem witness_WordWriteAcrossControl : s0.cfg.map = Parameters.r6 ∧ s0.phase = .ready := by decide
theorem witness_WordTriggerRunsHookBeforeHighByte : s0.cfg.map = Parameters.r6 ∧ s0.phase = .ready ∧ (0x0139#16) ≠ 0x013A := by decide

/-- An address of the default class that is neither the trigger's nor in the sound window is transparent. -/
theorem transparent_default {c : Config} {mode : ModeTable} {a : Addr} {v : Byte} (hr : readClass c.map a = .default)
    (hs : ¬ c.map.sidWin.Has a) (ht : a ≠ Parameters.triggerAddr) : Transparent c mode a v :=
  .inl ⟨hr, fun h => hs h.1, fun h => ht h.1⟩

/-- (i), (ii) for BASIC and KERNAL, (iii) for the sound window in RAM mode and for a CIA window in ROM mode, and the trigger address with no
payload. -/
theorem witness_WriteReadTransparency :
    s0.cfg.map.WellFormed ∧ s0.phase = .ready ∧ Transparent s0.cfg s0.mode 0xCFFF 0x42 ∧
    Transparent s0.cfg ⟨.ram, .ram, .ram⟩ 0xA000 0x42 ∧ Transparent s0.cfg ⟨.ram, .ram, .ram⟩ 0xFFFF 0x42 ∧
    Transparent s0.cfg ⟨.ram, .ram, .ram⟩ 0xD7FF 0x42 ∧ Transparent s0.cfg ⟨.rom, .rom, .rom⟩ 0xDC00 0x42 ∧
    Transparent s0.cfg s0.mode 0x0139 0xFF := by
  refine ⟨by decide, by decide, transparent_default (by decide) (by decide) (by decide), .inr (.inl (.inl (by decide))),
    .inr (.inl (.inr (by decide))), .inr (.inr (.inl ⟨⟨.sid, by decide⟩, rfl⟩)), .inr (.inr (.inr (by decide))),
    .inl ⟨by decide, by decide, ?_⟩⟩
  rintro ⟨_, _, p, hp, _⟩
  cases hp
theorem witness_WordRoundTrip :
    s0.cfg.map = Parameters.r6 ∧ s0.phase = .ready ∧ exec (.wrw 0xCFFE 0xBEEF) s0 = .next (respond .ack (writeWord 0xCFFE 0xBEEF s0)) ∧
    Transparent s0.cfg (respond .ack (writeWord 0xCFFE 0xBEEF s0)).mode 0xCFFE 0xEF ∧
    Transparent s0.cfg (respond .ack (writeWord 0xCFFE 0xBEEF s0)).mode (0xCFFE + 1) 0xBE ∧
    ¬ ((0xCFFE#16) = 0x0138 ∧ (0xBE#8) = 0xFF#8 ∧ hookCovers s0.cfg 0x0138) :=
  ⟨rfl, rfl, exec_wrw rfl _ _, transparent_default (by decide) (by decide) (by decide),
    transparent_default (by decide) (by decide) (by decide), fun h => absurd h.1 (by decide)⟩
/-- The same state and operands meet the hypotheses of the unrestricted form. -/
theorem witness_WordRoundTripAsWorded :
    s0.cfg.map = Parameters.r6 ∧ s0.phase = .ready ∧ exec (.wrw 0xCFFE 0xBEEF) s0 = .next (respond .ack (writeWord 0xCFFE 0xBEEF s0)) ∧
    Transparent s0.cfg (respond .ack (writeWord 0xCFFE 0xBEEF s0)).mode 0xCFFE 0xEF ∧
    Transparent s0.cfg (respond .ack (writeWord 0xCFFE 0xBEEF s0)).mode (0xCFFE + 1) 0xBE :=
  ⟨rfl, rfl, exec_wrw rfl _ _, transparent_default (by decide) (by decide) (by decide),
    transparent_default (by decide) (by decide) (by decide)⟩
theorem witness_HookOnlyAtTrigger : s0.cfg.map.WellFormed ∧ s0.phase = .ready := by decide
/-- The payloads of the two witnesses below: the middle one's first byte is covered by the last one, its second byte is not. -/
def threeMonitors : List Payload := [.monitor 0xFFFF [7]] ++ .monitor 0xFFFF [1, 2] :: [.monitor 0xFFFF [3]]

/-- A one-byte payload covers its destination alone. -/
theorem not_covers_one {e dest a : Addr} {b : Byte} (h : a ≠ dest) : ¬ payloadCovers e a (.monitor dest [b]) := by
  rintro ⟨i, hi, rfl⟩
  obtain rfl : i = 0 := by simpa using hi
  exact h (by simp)

/-- With a byte of the image that no later payload covers, and an address that none covers. -/
theorem witness_TriggerCopiesMonitor :
    (s0With threeMonitors).cfg.map.WellFormed ∧ (s0With threeMonitors).phase = .ready ∧
    (s0With threeMonitors).cfg.ramPayloads = [.monitor 0xFFFF [7]] ++ .monitor 0xFFFF [1, 2] :: [.monitor 0xFFFF [3]] ∧
    1 < [1#8, 2#8].length ∧ [1#8, 2#8].length ≤ 1 + 65536 ∧
    (∀ p ∈ [Payload.monitor 0xFFFF [3]], ¬ payloadCovers 0x002D (0xFFFF + BitVec.ofNat 16 1) p) ∧
    ¬ hookCovers (s0With threeMonitors).cfg 0x0139 := by
  refine ⟨by decide, rfl, rfl, by decide, by decide, ?_, ?_⟩
  · simpa using not_covers_one (by decide)
  · rintro ⟨p, hp, hc⟩
    simp only [s0With, cfgT, threeMonitors, List.mem_append, List.mem_cons, List.not_mem_nil, or_false] at hp
    rcases hp with rfl | rfl | rfl
    · exact not_covers_one (by decide) hc
    · obtain ⟨i, hi, e⟩ := hc
      have : i = 0 ∨ i = 1 := by simp at hi; omega
      rcases this with rfl | rfl <;> exact absurd e (by decide)
    · exact not_covers_one (by decide) hc

/-- The pointer pair and the image's byte stand where no later payload covers them, and no payload covers 0x0139. -/
theorem witness_TriggerCopiesProgram :
    (s0With [.program 0x01 0x08 [0x0B], .monitor 0xC000 [3]]).cfg.map.WellFormed ∧
    (s0With [.program 0x01 0x08 [0x0B], .monitor 0xC000 [3]]).phase = .ready ∧
    (s0With [.program 0x01 0x08 [0x0B], .monitor 0xC000 [3]]).cfg.ramPayloads = [] ++ .program 0x01 0x08 [0x0B] :: [.monitor 0xC000 [3]] ∧
    [0x0B#8].length ≤ 0 + 65536 ∧ (0x08#8 ++ 0x01#8 : Addr) + BitVec.ofNat 16 0 ≠ 0x002D ∧
    (0x08#8 ++ 0x01#8 : Addr) + BitVec.ofNat 16 0 ≠ 0x002D + 1 ∧
    (∀ x ∈ [0x002D, 0x002D + 1, (0x08#8 ++ 0x01#8 : Addr) + BitVec.ofNat 16 0], ∀ p ∈ [Payload.monitor 0xC000 [3]],
      ¬ payloadCovers 0x002D x p) ∧
    ¬ hookCovers (s0With [.program 0x01 0x08 [0x0B], .monitor 0xC000 [3]]).cfg 0x0139 := by
  refine ⟨by decide, rfl, rfl, by decide, by decide, by decide, ?_, ?_⟩
  · intro x hx p hp
    obtain rfl := List.mem_singleton.1 hp
    simp only [List.mem_cons, List.not_mem_nil, or_false] at hx
    rcases hx with rfl | rfl | rfl <;> exact not_covers_one (by decide)
  · rintro ⟨p, hp, hc⟩
    simp only [s0With, cfgT, List.mem_cons, List.not_mem_nil, or_false] at hp
    rcases hp with rfl | rfl
    · rcases hc with ⟨i, hi, e⟩ | e | e
      · obtain rfl : i = 0 := by simpa using hi
        exact absurd e (by decide)
      · exact absurd e (by decide)
      · exact absurd e (by decide)
    · exact not_covers_one (by decide) hc
theorem witness_TriggerTwiceAsOnce : s0.cfg.map.WellFormed ∧ s0.phase = .ready ∧ Memory.wf ramFill s0.ram := by decide
theorem witness_VideoReadShows : s0.phase = .ready := rfl
theorem witness_VideoReadIndependentOfLatch : s0.phase = .ready ∧ ¬ VicOverride (vicFullAddr 0x4000 0x1000) := by decide
/-- Both bases. -/
theorem witness_VideoReadFromHighBanksIsRam :
    s0.phase = .ready ∧ nextVicBase { s0 with vicBases := [0x4000] } = 0x4000 ∧ nextVicBase { s0 with vicBases := [0xC000] } = 0xC000 := by
  decide
theorem witness_ResetBuildsMachine : buildable.phase = .unbuilt ∧ buildable.cfg.WellFormed ∧ buildable.cfg.SizesRight :=
  ⟨rfl, by decide, cfgFull_sizesRight⟩
/-- With the last byte of an image and both ends of the zeroed ranges. -/
theorem witness_ResetLoadsImages :
    buildable.phase = .unbuilt ∧ buildable.cfg.WellFormed ∧ buildable.cfg.SizesRight ∧ buildable.cfg.map = Parameters.r6 ∧
    buildable.cfg.romPatches = [] ∧ 8191 < buildable.cfg.basicImg.length ∧ (0x9FFF#16).toNat < 0xA000 ∧
    (0xC000 ≤ (0xCFFF#16).toNat ∧ (0xCFFF#16).toNat < 0xD000) :=
  ⟨rfl, by decide, cfgFull_sizesRight, rfl, rfl,
    Nat.lt_of_lt_of_eq (by decide : 8191 < Parameters.basicSize) cfgFull_sizesRight.1.symm, by decide, by decide, by decide⟩
/-- With a patch list in which a later entry names the same offset. -/
theorem witness_ResetAppliesPatches :
    ({ buildable with cfg := { cfgFull with romPatches := [(0xE000, 0x4C), (0xE000, 0x60)] } } : State).phase = .unbuilt ∧
    ({ cfgFull with romPatches := [(0xE000, 0x4C), (0xE000, 0x60)] } : Config).WellFormed ∧
    ({ cfgFull with romPatches := [(0xE000, 0x4C), (0xE000, 0x60)] } : Config).SizesRight ∧
    [((0xE000#16), (0x4C#8)), (0xE000, 0x60)] = [(0xE000, 0x4C)] ++ (0xE000, 0x60) :: [] :=
  ⟨rfl, by decide, cfgFull_sizesRight, rfl⟩
theorem witness_ResetWithWrongSizeFails : unbuilt.phase = .unbuilt ∧ unbuilt.cfg.WellFormed ∧ ¬ unbuilt.cfg.SizesRight := by decide
theorem witness_IllFormedConfigurationRefused :
    ({ unbuilt with cfg := { cfgT [] with endPtrAddr := 0x00FF } } : State).phase = .unbuilt ∧
    ¬ ({ unbuilt with cfg := { cfgT [] with endPtrAddr := 0x00FF } } : State).cfg.WellFormed := by decide
theorem witness_LifecycleRefusals :
    (unbuilt.phase = .unbuilt ∧ Instr.rdb 0 ≠ .reset) ∧ s0.phase = .ready ∧ failed.phase = .failed := by decide
theorem witness_FailedIsFinal : ({ failed with requests := [0xF00000000] } : State).phase = .failed ∧ [0xF00000000#36] ≠ [] := by decide
theorem witness_SteadyStateAlwaysSucceeds : s0.phase = .ready ∧ Instr.vrd 0xFFFF ≠ .reset := by decide
theorem witness_ReadyStepKeepsRomAndConfig : s0.phase = .ready := rfl
theorem witness_LatchChangesOnlyThroughControlWrite :
    seen (step { s0 with requests := [0x300000500] }) (fun t => decide (t.latch ≠ s0.latch)) = some true := by decide
theorem witness_RefusalMarkIsKept :
    ({ s0 with responses := [.refused .notBuilt] } : State).Marked ∧ step { s0 with responses := [.refused .notBuilt] } =
      .next { s0 with responses := [.refused .notBuilt] } := ⟨by decide, rfl⟩
/-- A machine with the full images meets the invariant, and steps. -/
theorem witness_StepKeepsInvariant : ({ s0 with cfg := cfgFull } : State).Inv ∧ step { s0 with cfg := cfgFull } = .next { s0 with cfg := cfgFull } :=
  ⟨⟨by decide, by decide, fun _ => ⟨by decide, cfgFull_sizesRight⟩, fun _ h => nomatch h⟩, rfl⟩
theorem witness_ResetState : (0x0000#16) ≠ 0x0001 := by decide

end Sys2Proof.Tests
end

section
/-! PROOFS. The statements of spec/00_scope.md: what a step does with a request that decodes (R5), and the well-formedness of a
configuration (R7). -/

namespace Sys2Proof.Machine

/-- Settles O1: of the three things a step can answer (`step_cases`), the queue's first word rules out idling and its decoding rules out
the refusal. -/
theorem stepAnswersDecodedRequest : Obligations.StepAnswersDecodedRequest := by
  intro s w rest i hq hd
  obtain ⟨hq', -⟩ | ⟨w', rest', i', hq', hd', hstep⟩ | ⟨w', rest', r, hq', hd', -⟩ := step_cases s
  · exact absurd (hq.symm.trans hq') (List.cons_ne_nil w rest)
  · obtain ⟨rfl, rfl⟩ := List.cons.inj (hq.symm.trans hq')
    obtain rfl := Except.ok.inj (hd.symm.trans hd')
    exact hstep
  · obtain ⟨rfl, -⟩ := List.cons.inj (hq.symm.trans hq')
    exact nomatch hd.symm.trans hd'

/-- Settles O9, item by item of R7; R6's values are closed terms, so each item is decided. -/
theorem r6ValuesWellFormed : Obligations.R6ValuesWellFormed := by
  have windows : Parameters.r6.WindowsDisjoint := by decide
  have inside : Parameters.r6.PeripheralsInsideCharIo := by decide
  have ctrl : Parameters.r6.CtrlInZeroPage := by decide
  have outside : Parameters.r6.SpecialsOutsideWindows := by decide
  have bits : Parameters.r6.LatchBitsDistinct := by decide
  have images : Parameters.r6.ImagesFit := by decide
  exact ⟨windows, inside, ctrl, outside, bits, images⟩

/-- Settles O46: of RESET's four answers (`exec_reset_cases`), phase UNBUILT with an ill-formed configuration leaves the model's own
refusal. -/
theorem illFormedConfigurationRefused : Obligations.IllFormedConfigurationRefused := by
  intro s hphase hill
  obtain ⟨-, hwf, -⟩ | ⟨-, -, hexec⟩ | ⟨hready, -⟩ | ⟨hfailed, -⟩ := exec_reset_cases s
  · exact absurd hwf hill
  · exact hexec
  · exact nomatch hphase.symm.trans hready
  · exact nomatch hphase.symm.trans hfailed

end Sys2Proof.Machine
end

section
/-! PROOFS. The statements of spec/10_state.md: what every step keeps (R15, R24, R25), the control address (R19, R20, R26) and the state
after reset (R27). -/

namespace Sys2Proof.Machine

/-! ### What an answered request keeps

Every request but the RESET that constructs the machine is answered within `Steady`. The relation is proved of each shared operation once
and composed along the requests' meanings; a field an update does not touch is settled by the field's default. -/

/-- `t` is `s` after some of the block's work on a request: the configuration, the phase, the ROM plane and the queue stand, RAM stays
canonical (R15), and the two records grow at their ends (R24, R107), TRACE by legal events only (R74, R98). -/
structure Steady (s t : State) : Prop where
  cfg : t.cfg = s.cfg := by rfl
  phase : t.phase = s.phase := by rfl
  rom : t.rom = s.rom := by rfl
  requests : t.requests = s.requests := by rfl
  ramWf : Memory.wf ramFill s.ram → Memory.wf ramFill t.ram := by exact id
  traceGrows : s.trace <+: t.trace := by exact ⟨[], List.append_nil _⟩
  traceLegal : (∀ e ∈ s.trace, e.Legal) → ∀ e ∈ t.trace, e.Legal := by exact id
  responsesGrow : s.responses <+: t.responses := by exact ⟨[], List.append_nil _⟩

theorem Steady.refl (s : State) : Steady s s where

theorem Steady.trans {s t u : State} (h : Steady s t) (k : Steady t u) : Steady s u where
  cfg := k.cfg.trans h.cfg
  phase := k.phase.trans h.phase
  rom := k.rom.trans h.rom
  requests := k.requests.trans h.requests
  ramWf := k.ramWf ∘ h.ramWf
  traceGrows := h.traceGrows.trans k.traceGrows
  traceLegal := k.traceLegal ∘ h.traceLegal
  responsesGrow := h.responsesGrow.trans k.responsesGrow

theorem steady_ramWrite (a : Addr) (v : Byte) (s : State) : Steady s (ramWrite a v s) where
  ramWf h := Memory.write_addr_wf h a v

theorem steady_setConfig (v : Byte) (s : State) : Steady s (setConfig v s) where
  ramWf h := Memory.write_addr_wf h s.cfg.map.ctrlAddr v

theorem steady_emit {e : Event} (he : e.Legal) (s : State) : Steady s (emit e s) where
  traceGrows := ⟨_, rfl⟩
  traceLegal h := List.forall_mem_append.2 ⟨h, List.forall_mem_singleton.2 he⟩

theorem steady_respond (r : Response) (s : State) : Steady s (respond r s) where
  responsesGrow := ⟨_, rfl⟩

theorem steady_refuse (r : RefusalReason) (s : State) : Steady s (refuse r s) := steady_respond (.refused r) s

theorem steady_runHook (s : State) : Steady s (runHook s) :=
  (steady_emit (e := .hook) trivial s).trans { ramWf := patchRam_wf s.cfg }

theorem steady_devWrite (d : Device) (a : Addr) (v : Byte) (s : State) : Steady s (devWrite d (devOffset d a) v s) :=
  steady_emit (e := .pwr d (devOffset d a) v) (devOffset_le d a) s

theorem steady_devRead {d : Device} (hd : d ≠ .sid) (a : Addr) (s : State) : Steady s (devRead d (devOffset d a) s).2 :=
  Steady.trans (t := { s with devAnswers := s.devAnswers.tail, draws := s.draws + 1 }) {}
    (steady_emit (e := .prd d (devOffset d a) (nextDevByte s)) ⟨devOffset_le d a, hd⟩ _)

theorem steady_vicBase (s : State) : Steady s (vicBase s).2 :=
  Steady.trans (t := { s with vicBases := s.vicBases.tail, draws := s.draws + 1 }) {}
    (steady_emit (e := .vbase (nextVicBase s)) trivial _)

theorem steady_writeByte (a : Addr) (v : Byte) (s : State) : Steady s (writeByte a v s) := by
  obtain ⟨-, h⟩ | ⟨d, -, -, -, h⟩ | ⟨-, h⟩ | ⟨-, -, -, -, h⟩ := writeByte_cases a v s <;> rw [h]
  · exact steady_setConfig v s
  · exact steady_devWrite d a v s
  · exact steady_ramWrite a v s
  · exact (steady_ramWrite a v s).trans (steady_runHook _)

theorem steady_readByte (a : Addr) (s : State) : Steady s (readByte a s).2 := by
  obtain h | h | ⟨d, hd, -, -, h⟩ := readByte_cases a s <;> rw [h]
  · exact Steady.refl s
  · exact Steady.refl s
  · exact steady_devRead hd a s

theorem steady_answerByte {s : State} {r : Byte × State} (h : Steady s r.2) : Steady s (answerByte r) :=
  h.trans (steady_respond _ _)

theorem steady_answerWord {s : State} {r : Word × State} (h : Steady s r.2) : Steady s (answerWord r) :=
  h.trans (steady_respond _ _)

theorem Steady.ack {s t : State} (h : Steady s t) : Steady s (respond .ack t) := h.trans (steady_respond _ _)

theorem serve_steady (s : State) {effect : State → State} (h : ∀ s, Steady s (effect s)) :
    ∃ t, serve s effect = .next t ∧ Steady s t := by
  obtain ⟨-, hserve⟩ | ⟨r, -, -, hserve⟩ := serve_cases s effect
  · exact ⟨_, hserve, h s⟩
  · exact ⟨_, hserve, steady_refuse r s⟩

/-- A bus request is answered, in every phase. -/
theorem exec_bus_steady {i : Instr} (hi : i ≠ .reset) (s : State) : ∃ t, exec i s = .next t ∧ Steady s t := by
  cases i with
  | rdb a => exact serve_steady s fun s => steady_answerByte (steady_readByte a s)
  | wrb a v => exact serve_steady s fun s => (steady_writeByte a v s).ack
  | rdw a => exact serve_steady s fun s => steady_answerWord ((steady_readByte a s).trans (steady_readByte (nextAddr a) _))
  | wrw a v => exact serve_steady s fun s => ((steady_writeByte a _ s).trans (steady_writeByte (nextAddr a) _ _)).ack
  | rdbn a => exact serve_steady s fun s => steady_respond _ s
  | wrbn a v => exact serve_steady s fun s => (steady_ramWrite a v s).ack
  | rdwn a => exact serve_steady s fun s => steady_respond _ s
  | wrwn a v => exact serve_steady s fun s => ((steady_ramWrite a _ s).trans (steady_ramWrite (nextAddr a) _ _)).ack
  | vrd a => exact serve_steady s fun s => steady_answerByte (steady_vicBase s)
  | reset => exact absurd rfl hi

/-- Everything a request can do to the invariant's fields: it is answered within `Steady`, or it is RESET in phase UNBUILT, which
constructs the machine or is refused by the model. -/
theorem exec_steady_or_constructs (i : Instr) (s : State) :
    (∃ t, exec i s = .next t ∧ Steady s t) ∨
    (s.phase = .unbuilt ∧ s.cfg.WellFormed ∧ exec i s = .next (construct s)) ∨
    (s.phase = .unbuilt ∧ exec i s = .refused .illFormedConfig) := by
  by_cases hi : i = .reset
  · subst hi
    obtain ⟨hp, hwf, h⟩ | ⟨hp, -, h⟩ | ⟨-, h⟩ | ⟨-, h⟩ := exec_reset_cases s
    · exact .inr (.inl ⟨hp, hwf, h⟩)
    · exact .inr (.inr ⟨hp, h⟩)
    · exact .inl ⟨_, h, steady_refuse _ s⟩
    · exact .inl ⟨_, h, steady_refuse _ s⟩
  · exact .inl (exec_bus_steady hi s)

/-- The state with the queue moved past its first request, if it has one (R42). -/
def State.popRequest (s : State) : State := { s with requests := s.requests.tail }

theorem popRequest_of_nil {s : State} (h : s.requests = []) : s.popRequest = s := by
  cases s; cases h; rfl

theorem popRequest_of_cons {s : State} {w : ReqWord} {rest : List ReqWord} (h : s.requests = w :: rest) :
    s.popRequest = { s with requests := rest } := by
  rw [State.popRequest, h, List.tail_cons]

/-- Everything a step can do to the invariant's fields, after `exec_steady_or_constructs`. -/
theorem step_steady_or_constructs (s : State) :
    (∃ t, step s = .next t ∧ Steady s.popRequest t) ∨
    (s.phase = .unbuilt ∧ s.cfg.WellFormed ∧ step s = .next (construct s.popRequest)) ∨
    (s.phase = .unbuilt ∧ step s = .refused .illFormedConfig) := by
  obtain ⟨hq, h⟩ | ⟨w, rest, i, hq, -, h⟩ | ⟨w, rest, r, hq, -, h⟩ := step_cases s
  · refine .inl ⟨s, h, ?_⟩
    rw [popRequest_of_nil hq]
    exact Steady.refl s
  · rw [h, ← popRequest_of_cons hq]
    exact exec_steady_or_constructs i s.popRequest
  · rw [← popRequest_of_cons hq] at h
    exact .inl ⟨_, h, steady_refuse _ _⟩

theorem Steady.inv {s t : State} (h : Steady s t) (hs : s.Inv) : t.Inv where
  ramWf := h.ramWf hs.ramWf
  romWf := h.rom ▸ hs.romWf
  readyBuilt hp := h.cfg ▸ hs.readyBuilt (h.phase ▸ hp)
  traceLegal := h.traceLegal hs.traceLegal

theorem State.Inv.popRequest {s : State} (hs : s.Inv) : s.popRequest.Inv :=
  ⟨hs.ramWf, hs.romWf, hs.readyBuilt, hs.traceLegal⟩

/-- Construction from a well-formed configuration establishes the invariant, whatever stood before: a machine of wrong sizes does not
become READY. -/
theorem construct_inv {s : State} (hwf : s.cfg.WellFormed) : (construct s).Inv := by
  obtain ⟨image, size, -, h⟩ | ⟨hsizes, h⟩ := construct_cases s <;> rw [h]
  · exact ⟨Memory.nil_wf _, Memory.nil_wf _, nofun, nofun⟩
  · exact ⟨ramBuilt_wf _, romBuilt_wf _, fun _ => ⟨hwf, (wrongSize_none_iff _).1 hsizes⟩, nofun⟩

/-- Settles O53: what a step does within `Steady` keeps the invariant, and a construction establishes it. -/
theorem stepKeepsInvariant : Obligations.StepKeepsInvariant := by
  intro s t hs hstep
  obtain ⟨u, h, hsteady⟩ | ⟨-, hwf, h⟩ | ⟨-, h⟩ := step_steady_or_constructs s
  · obtain rfl := Host.Outcome.next.inj (h.symm.trans hstep)
    exact hsteady.inv hs.popRequest
  · obtain rfl := Host.Outcome.next.inj (h.symm.trans hstep)
    exact construct_inv hwf
  · exact nomatch h.symm.trans hstep

/-- Settles O50: in phase READY only the `Steady` case of `step_steady_or_constructs` is left. -/
theorem readyStepKeepsRomAndConfig : Obligations.ReadyStepKeepsRomAndConfig := by
  intro s hready
  obtain ⟨t, hstep, h⟩ | ⟨hunbuilt, -⟩ | ⟨hunbuilt, -⟩ := step_steady_or_constructs s
  · obtain ⟨es, hes⟩ := h.traceGrows
    obtain ⟨rs, hrs⟩ := h.responsesGrow
    exact ⟨t, es, rs, hstep, h.phase.trans hready, h.cfg, h.rom, hes.symm, hrs.symm, h.requests⟩
  · exact nomatch hready.symm.trans hunbuilt
  · exact nomatch hready.symm.trans hunbuilt

/-! ### The control address -/

theorem writeByte_ctrl (v : Byte) (s : State) : writeByte s.cfg.map.ctrlAddr v s = setConfig v s := by
  obtain ⟨-, h⟩ | ⟨_, hne, -⟩ | ⟨hne, -⟩ | ⟨hne, -⟩ := writeByte_cases s.cfg.map.ctrlAddr v s
  · exact h
  · exact absurd rfl hne
  · exact absurd rfl hne
  · exact absurd rfl hne

theorem readByte_ctrl {s : State} (h : s.cfg.map.WellFormed) :
    readByte s.cfg.map.ctrlAddr s = (ramRead s s.cfg.map.ctrlAddr, s) := by
  simp only [readByte, readClass_ctrl h]

theorem ramRead_setConfig_ctrl (v : Byte) (s : State) : ramRead (setConfig v s) s.cfg.map.ctrlAddr = v := by
  rw [ramRead_setConfig, if_pos rfl]

/-- Settles O13: the routed write is `setConfig` (`writeByte_ctrl`), and its RAM frame is `ramRead_setConfig`. -/
theorem controlWriteLoadsLatch : Obligations.ControlWriteLoadsLatch := by
  intro s v hready
  refine ⟨respond .ack (setConfig v s), ?_, rfl, rfl, ramRead_setConfig_ctrl v s, fun x hx => ?_⟩
  · rw [exec_wrb hready, writeByte_ctrl]
  · rw [ramRead_respond, ramRead_setConfig, if_neg hx.symm]

theorem exec_rdb_ctrl {s : State} (hwf : s.cfg.map.WellFormed) (hready : s.phase = .ready) :
    exec (.rdb s.cfg.map.ctrlAddr) s = .next (answerByte (ramRead s s.cfg.map.ctrlAddr, s)) := by
  rw [exec_rdb hready, readByte_ctrl hwf]

/-- Settles O14: under a well-formed map a routed read of CTRL_ADDR is the plain RAM read that RDBN makes (`exec_rdb_ctrl`). -/
theorem controlReadReturnsRam : Obligations.ControlReadReturnsRam := fun s hwf hready =>
  ⟨readClass_ctrl hwf, exec_rdb_ctrl hwf hready, exec_rdbn hready s.cfg.map.ctrlAddr, fun v => ramRead_setConfig_ctrl v s⟩

/-- Settles O15: the no-I/O write is a store into RAM alone, and the routed read of CTRL_ADDR after it sees that byte. -/
theorem noIoControlWriteKeepsMode : Obligations.NoIoControlWriteKeepsMode := by
  intro s x hwf hready
  refine ⟨_, _, exec_wrbn hready s.cfg.map.ctrlAddr x,
    exec_rdb_ctrl (s := respond .ack (ramWrite s.cfg.map.ctrlAddr x s)) hwf hready, rfl, rfl, rfl, ?_⟩
  simp [answerByte, zext16, ramRead_ramWrite]

/-! ### The state after reset -/

theorem countP_isProgram_monitors (ms : List (Addr × List Byte)) :
    (ms.map fun p => Payload.monitor p.1 p.2).countP Payload.isProgram = 0 := by
  rw [List.countP_eq_zero]
  intro p hp
  obtain ⟨m, -, rfl⟩ := List.mem_map.1 hp
  exact Bool.false_ne_true

/-- R82: of the board's payloads only the middle part, which has at most one entry, is a program image. -/
theorem board_atMostOneProgram : Config.board.AtMostOneProgram := by
  change Config.openPayloads.countP Payload.isProgram ≤ 1
  rw [Config.openPayloads, List.countP_append, List.countP_append, countP_isProgram_monitors, countP_isProgram_monitors,
    Nat.zero_add, Nat.add_zero]
  cases Config.openProgram with
  | none => exact Nat.zero_le 1
  | some p => exact Nat.le_refl 1

/-- R7: a pointer address below 255 leaves room in the zero page for the pair. -/
theorem board_endPtrInZeroPage : Config.board.EndPtrInZeroPage := by
  have hlt := Config.openEndPtr.isLt
  simp only [Config.EndPtrInZeroPage, Config.board, Window.Has, Parameters.zpWin, BitVec.le_def, BitVec.toNat_add, BitVec.ofNat_eq_ofNat,
    BitVec.toNat_ofNat]
  omega

theorem board_wellFormed : Config.board.WellFormed :=
  ⟨r6ValuesWellFormed, board_endPtrInZeroPage, board_atMostOneProgram⟩

theorem board_sizesRight : Config.board.SizesRight :=
  ⟨Config.openBasicImg.size_toArray, Config.openCharImg.size_toArray, Config.openKernalImg.size_toArray⟩

/-- Settles O54: the planes are those construction builds, and the board's configuration is well-formed with images of the right sizes,
whatever its OPEN parameters are. -/
theorem resetMeetsInvariant : Obligations.ResetMeetsInvariant where
  ramWf := ramBuilt_wf Config.board
  romWf := romBuilt_wf Config.board
  readyBuilt _ := ⟨board_wellFormed, board_sizesRight⟩
  traceLegal := nofun

/-- The board's RAM after construction is R27's fill but for the latch byte at CTRL_ADDR. -/
theorem ramRead_reset (a : Addr) : ramRead State.reset a = if 0x0001 = a then 0x07 else ramFill a.toNat :=
  Memory.read_write_addr ramFill [] 0x0001 0x07 a

/-- Settles O55: the registers are read off `State.reset`, RAM by `ramRead_reset`. -/
theorem resetState : Obligations.ResetState := by
  have hmode : modeOf Parameters.r6 0x07 = ⟨.rom, .rom, .io⟩ := by decide
  refine ⟨rfl, rfl, hmode, rfl, ramRead_reset 0x0001, fun a ha => ?_⟩
  rw [ramRead_reset, if_neg ha.symm, ramFill]

end Sys2Proof.Machine
end

section
/-! PROOFS. The statements of spec/20_memory.md: the address map under R6's values (R30, R33, R34), what the switched windows show and
store (R35, R36), a control write and the next read (R42, R63), and a step without a request (R107). -/

namespace Sys2Proof.Machine

/-! ### What a class of the decode does -/

/-- Read decode of an address in none of the five read-switched windows (R34). -/
theorem readClass_outside {m : AddressMap} {a : Addr} (hd : ∀ d : Device, d ≠ .sid → ¬ (d.window m).Has a)
    (hb : ¬ m.basicWin.Has a) (hk : ¬ m.kernalWin.Has a) : readClass m a = .default := by
  obtain ⟨d, hne, ha, -⟩ | ⟨ha, -⟩ | ⟨ha, -⟩ | ⟨-, -, -, h⟩ := readClass_cases m a
  · exact absurd ha (hd d hne)
  · exact absurd ha hb
  · exact absurd ha hk
  · exact h

/-- Write decode of an address that is neither CTRL_ADDR nor a peripheral's (R33). -/
theorem writeClass_outside {m : AddressMap} {a : Addr} (hc : a ≠ m.ctrlAddr) (hd : ∀ d : Device, ¬ (d.window m).Has a) :
    writeClass m a = .default := by
  obtain ⟨ha, -⟩ | ⟨d, -, ha, -⟩ | ⟨-, -, h⟩ := writeClass_cases m a
  · exact absurd ha hc
  · exact absurd ha (hd d)
  · exact h

theorem writeClass_ctrl (m : AddressMap) : writeClass m m.ctrlAddr = .control := if_pos rfl

theorem readByte_default {s : State} {a : Addr} (h : readClass s.cfg.map a = .default) : readByte a s = (ramRead s a, s) := by
  simp only [readByte, h]

theorem readByte_basic {s : State} {a : Addr} (hwf : s.cfg.map.WellFormed) (ha : s.cfg.map.basicWin.Has a) :
    readByte a s = (overlayRead s.mode.basic a s, s) := by
  simp only [readByte, readClass_basic hwf ha]

theorem readByte_kernal {s : State} {a : Addr} (hwf : s.cfg.map.WellFormed) (ha : s.cfg.map.kernalWin.Has a) :
    readByte a s = (overlayRead s.mode.kernal a s, s) := by
  simp only [readByte, readClass_kernal hwf ha]

theorem readByte_peripheral {s : State} {d : Device} {a : Addr} (hwf : s.cfg.map.WellFormed) (hd : d ≠ .sid)
    (ha : (d.window s.cfg.map).Has a) : readByte a s = peripheralLoad d a s := by
  simp only [readByte, readClass_peripheral hwf hd ha]

theorem writeByte_peripheral {s : State} {d : Device} {a : Addr} (hwf : s.cfg.map.WellFormed) (ha : (d.window s.cfg.map).Has a)
    (v : Byte) : writeByte a v s = peripheralStore d a v s := by
  simp only [writeByte, writeClass_peripheral hwf ha]

/-- A store to the BASIC or the KERNAL window is a plain one: TRIGGER_ADDR lies in neither (R7). -/
theorem writeByte_overlay {s : State} {a : Addr} (hwf : s.cfg.map.WellFormed)
    (ha : s.cfg.map.basicWin.Has a ∨ s.cfg.map.kernalWin.Has a) (v : Byte) : writeByte a v s = ramWrite a v s := by
  have htrigger : a ≠ Parameters.triggerAddr := by
    obtain ha | ha := ha
    · exact ne_trigger_of_has hwf (by simp) ha
    · exact ne_trigger_of_has hwf (by simp) ha
  simp only [writeByte, writeClass_overlay hwf ha, defaultStore, htrigger, false_and, if_false]

theorem exec_rdb_default {s : State} {a : Addr} (hready : s.phase = .ready) (h : readClass s.cfg.map a = .default) :
    exec (.rdb a) s = .next (answerByte (ramRead s a, s)) := by
  rw [exec_rdb hready, readByte_default h]

/-- A window of a peripheral is one of the six that R7 keeps apart. -/
theorem window_mem_switchedWindows (m : AddressMap) (d : Device) : d.window m ∈ m.switchedWindows := by
  cases d <;> simp [Device.window]

/-! ### The address map under R6's values -/

/-- Outside the six windows and CTRL_ADDR both decodes give the default class. -/
theorem r6_decodes_default {a : Addr} (hc : a.toNat ≠ 0x0001)
    (h : a.toNat < 0xA000 ∨ 0xC000 ≤ a.toNat ∧ a.toNat < 0xD000 ∨ 0xD800 ≤ a.toNat ∧ a.toNat < 0xDC00 ∨
      0xDE00 ≤ a.toNat ∧ a.toNat < 0xE000) :
    readClass Parameters.r6 a = .default ∧ writeClass Parameters.r6 a = .default := by
  have outside : ∀ w ∈ Parameters.r6.switchedWindows, ¬ w.Has a := by
    simp only [AddressMap.switchedWindows, Parameters.r6, List.forall_mem_cons, Window.Has, BitVec.le_def, BitVec.ofNat_eq_ofNat,
      BitVec.toNat_ofNat]
    refine ⟨?_, ?_, ?_, ?_, ?_, ?_, nofun⟩ <;> omega
  have outsideDevices (d : Device) : ¬ (d.window Parameters.r6).Has a := outside _ (window_mem_switchedWindows _ d)
  exact ⟨readClass_outside (fun d _ => outsideDevices d) (outside _ (by simp)) (outside _ (by simp)),
    writeClass_outside (fun e => hc (congrArg BitVec.toNat e)) outsideDevices⟩

/-- Settles O10, range by range: in a window the decode of any well-formed map applies, R6's values being one (`r6ValuesWellFormed`),
and outside of them `r6_decodes_default`. -/
theorem addressMapRanges : Obligations.AddressMapRanges := by
  intro a n decodes
  have wf : Parameters.r6.WellFormed := r6ValuesWellFormed
  have peripheral (d : Device) (hd : d ≠ .sid) (h : (d.window Parameters.r6).Has a) : decodes (.peripheral d) (.peripheral d) :=
    ⟨readClass_peripheral wf hd h, writeClass_peripheral wf h⟩
  refine ⟨fun h => ?ctrl, fun h hc => ?low, fun h => ?basic, fun h => ?c000, ?vic, fun h => ?sid, fun h => ?d800, ?cia1, ?cia2,
    fun h => ?de00, fun h => ?kernal⟩
  case ctrl =>
    obtain rfl : a = Parameters.r6.ctrlAddr := BitVec.eq_of_toNat_eq h
    exact ⟨readClass_ctrl wf, writeClass_ctrl _⟩
  case basic => exact ⟨readClass_basic wf h, writeClass_overlay wf (.inl h)⟩
  case kernal =>
    have h' : Parameters.r6.kernalWin.Has a := ⟨h, Nat.le_of_lt_succ a.isLt⟩
    exact ⟨readClass_kernal wf h', writeClass_overlay wf (.inr h')⟩
  case sid => exact ⟨readClass_sid wf h, writeClass_peripheral (d := .sid) wf h⟩
  case vic => exact peripheral .vic nofun
  case cia1 => exact peripheral .cia1 nofun
  case cia2 => exact peripheral .cia2 nofun
  case low => exact r6_decodes_default hc (by omega)
  case c000 => exact r6_decodes_default (by omega) (by omega)
  case d800 => exact r6_decodes_default (by omega) (by omega)
  case de00 => exact r6_decodes_default (by omega) (by omega)

/-! ### A control write and the next read -/

theorem modeOf_chario_io_iff (m : AddressMap) (v : Byte) :
    (modeOf m v).chario = .io ↔ (latchC m v && (latchL m v || latchH m v)) = true := by
  simp only [modeOf]
  split
  · next hio => exact iff_of_true rfl hio
  · next hio =>
    refine iff_of_false ?_ hio
    split <;> exact nofun

theorem modeOf_chario_rom_iff (m : AddressMap) (v : Byte) : (modeOf m v).chario = .rom ↔ (!latchC m v) = true := by
  cases hc : latchC m v with
  | false => simp [modeOf, hc]
  | true =>
    cases hlh : latchL m v || latchH m v with
    | false => simp [modeOf, hc, Bool.or_eq_false_iff.1 hlh]
    | true => simp [modeOf, hc, hlh]

/-- R61, R65: what the BASIC slot shows, by the latch. -/
theorem overlayRead_basic (a : Addr) (s : State) : overlayRead s.mode.basic a s =
    if latchH s.cfg.map s.latch && latchL s.cfg.map s.latch then romRead s a else ramRead s a := by
  cases hh : latchH s.cfg.map s.latch <;> cases hl : latchL s.cfg.map s.latch <;> simp [overlayRead, State.mode, modeOf, hh, hl]

/-- R61, R65: what the KERNAL slot shows, by the latch. -/
theorem overlayRead_kernal (a : Addr) (s : State) : overlayRead s.mode.kernal a s =
    if latchH s.cfg.map s.latch then romRead s a else ramRead s a := by
  cases hh : latchH s.cfg.map s.latch <;> simp [overlayRead, State.mode, modeOf, hh]

/-- R61, R65: what a read of a peripheral window reaches, by the latch. -/
theorem peripheralLoad_eq (d : Device) (a : Addr) (s : State) : peripheralLoad d a s =
    if latchC s.cfg.map s.latch && (latchL s.cfg.map s.latch || latchH s.cfg.map s.latch) then devRead d (devOffset d a) s
    else (if d = .vic && !latchC s.cfg.map s.latch then romRead s a else ramRead s a, s) := by
  simp only [peripheralLoad, overlayRead, State.mode, modeOf_chario_io_iff, modeOf_chario_rom_iff]
  by_cases hd : d = .vic
  · simp only [hd, if_true, decide_true, Bool.true_and]
  · simp only [hd, if_false, decide_false, Bool.false_and, Bool.false_eq_true]

/-- A control write leaves RAM in the six windows as it was. -/
theorem ramRead_setConfig_of_has {s : State} (hwf : s.cfg.map.WellFormed) {w : Window} (hw : w ∈ s.cfg.map.switchedWindows) {a : Addr}
    (ha : w.Has a) (v : Byte) : ramRead (setConfig v s) a = ramRead s a := by
  rw [ramRead_setConfig, if_neg (ne_ctrl_of_has hwf hw ha).symm]

/-- Settles O16: the control write is `setConfig`, after which the latch holds the byte and the two planes stand in every window, so that
each read shows what that latch selects (`overlayRead_basic`, `overlayRead_kernal`, `peripheralLoad_eq`). -/
theorem controlWriteGovernsNextRead : Obligations.ControlWriteGovernsNextRead := by
  intro s v a hwf hready
  have hwf' : (respond .ack (setConfig v s)).cfg.map.WellFormed := hwf
  have hread := exec_rdb (s := respond .ack (setConfig v s)) hready a
  refine ⟨respond .ack (setConfig v s), by rw [exec_wrb hready, writeByte_ctrl], fun ha => ?basic, fun ha => ?kernal,
    fun d hd ha => ?device⟩
  case basic =>
    rw [hread, readByte_basic hwf' ha, overlayRead_basic, ramRead_respond, ramRead_setConfig_of_has hwf (by simp) ha]
    rfl
  case kernal =>
    rw [hread, readByte_kernal hwf' ha, overlayRead_kernal, ramRead_respond, ramRead_setConfig_of_has hwf (by simp) ha]
    rfl
  case device =>
    rw [hread, readByte_peripheral hwf' hd ha, peripheralLoad_eq, ramRead_respond,
      ramRead_setConfig_of_has hwf (window_mem_switchedWindows _ d) ha, apply_ite answerByte]
    rfl

/-! ### Reads and writes under ROM -/

/-- Settles O26: the sound chip's window has the default read class. -/
theorem soundWindowReadsRam : Obligations.SoundWindowReadsRam := fun _ _ hwf hready ha =>
  exec_rdb_default hready (readClass_sid hwf ha)

/-- R36: a routed write to a window that can show ROM, the video window while it does, stores to RAM and does nothing else. -/
theorem writeByte_underRom {s : State} {a : Addr} (hwf : s.cfg.map.WellFormed)
    (ha : s.cfg.map.basicWin.Has a ∨ s.cfg.map.kernalWin.Has a ∨ (s.cfg.map.vicWin.Has a ∧ s.mode.chario = .rom)) (v : Byte) :
    writeByte a v s = ramWrite a v s := by
  obtain ha | ha | ⟨ha, hrom⟩ := ha
  · exact writeByte_overlay hwf (.inl ha) v
  · exact writeByte_overlay hwf (.inr ha) v
  · rw [writeByte_peripheral (d := .vic) hwf ha, peripheralStore, hrom]
    rfl

/-- R35: a routed read of a window whose slot shows ROM returns the ROM byte. -/
theorem readByte_showsRom {s : State} {a : Addr} (hwf : s.cfg.map.WellFormed)
    (ha : s.cfg.map.basicWin.Has a ∨ s.cfg.map.kernalWin.Has a ∨ (s.cfg.map.vicWin.Has a ∧ s.mode.chario = .rom))
    (hbasic : s.cfg.map.basicWin.Has a → s.mode.basic = .rom) (hkernal : s.cfg.map.kernalWin.Has a → s.mode.kernal = .rom) :
    readByte a s = (romRead s a, s) := by
  obtain ha | ha | ⟨ha, hrom⟩ := ha
  · rw [readByte_basic hwf ha, hbasic ha]; rfl
  · rw [readByte_kernal hwf ha, hkernal ha]; rfl
  · rw [readByte_peripheral (d := .vic) hwf nofun ha, peripheralLoad, hrom]; rfl

/-- Settles O27: under ROM a write is `ramWrite` (`writeByte_underRom`), which changes neither MODE nor ROM, so that the next read is
`readByte_showsRom`; outside the read-switched windows the read class is the default one; a sound-chip write in IO mode is `devWrite`. -/
theorem writeUnderRomReachesRam : Obligations.WriteUnderRomReachesRam := by
  intro s a v hwf hready
  refine ⟨fun ha => ?underRom, fun hvic hcia1 hcia2 hbasic hkernal => ?outside, fun ha hio => ?sound⟩
  case underRom =>
    refine ⟨respond .ack (ramWrite a v s), by rw [exec_wrb hready, writeByte_underRom hwf ha], ?_, rfl, rfl, fun hbasic hkernal => ?_⟩
    · rw [ramRead_respond, ramRead_ramWrite, if_pos rfl]
    · rw [exec_rdb (s := respond .ack (ramWrite a v s)) hready,
        readByte_showsRom (s := respond .ack (ramWrite a v s)) hwf ha hbasic hkernal]
      rfl
  case outside =>
    have outsideDevices : ∀ d : Device, d ≠ .sid → ¬ (d.window s.cfg.map).Has a
      | .vic, _ => hvic
      | .cia1, _ => hcia1
      | .cia2, _ => hcia2
      | .sid, hd => absurd rfl hd
    exact exec_rdb_default hready (readClass_outside outsideDevices hbasic hkernal)
  case sound =>
    refine ⟨respond .ack (devWrite .sid (devOffset .sid a) v s), ?_, rfl, rfl⟩
    rw [exec_wrb hready, writeByte_peripheral (d := .sid) hwf ha, peripheralStore, if_pos hio]

/-! ### A step without a request -/

/-- Settles O3: of the three things a step can answer (`step_cases`), the two that answer a word need one in the queue. -/
theorem stepWithoutRequestIdles : Obligations.StepWithoutRequestIdles := by
  intro s hq
  obtain ⟨-, hstep⟩ | ⟨w, rest, i, hq', -⟩ | ⟨w, rest, r, hq', -⟩ := step_cases s
  · exact hstep
  · exact nomatch hq.symm.trans hq'
  · exact nomatch hq.symm.trans hq'

end Sys2Proof.Machine
end

section
/-! PROOFS. The statements of spec/30_encoding.md about request words: the decoder against the encoder (R47 to R50), the refused encodings
(R51, R52), and what a step answers to a word that spells no request. -/

namespace Sys2Proof

/-! ### The byte of a byte write (R49) -/

@[simp] theorem dataByte_byteData (v : Byte) : dataByte (byteData v) = v := Machine.lowByte_joinBytes 0 v

theorem highByte_byteData (v : Byte) : (byteData v).extractLsb' 8 8 = 0 := Machine.highByte_joinBytes 0 v

theorem byteData_dataByte {d : Word} (h : d.extractLsb' 8 8 = 0) : byteData (dataByte d) = d := by
  calc byteData (dataByte d)
      = Machine.joinBytes (d.extractLsb' 8 8) (Machine.lowByte d) := by rw [h]; rfl
    _ = d := Machine.joinBytes_high_low d

/-! ### The request that fields spell, and the fields that spell a request (R50 to R52) -/

@[simp] theorem instrOf_encodeFields (i : Instr) : instrOf (encodeFields i) = some i := by
  cases i <;> simp [instrOf, encodeFields]

theorem reservedZero_encodeFields (i : Instr) : (encodeFields i).ReservedZero := by
  cases i <;> simp [encodeFields, ReqFields.ReservedZero, ReqFields.CarriesNoData, ReqFields.CarriesByte, ReqFields.IsReset,
    highByte_byteData]

/-- R50, R51: an opcode is reserved or the opcode of one of the table's ten rows. -/
theorem opcode_cases (op : BitVec 4) :
    (0x9#4 ≤ op ∧ op ≤ 0xE#4) ∨ op = 0x0 ∨ op = 0x1 ∨ op = 0x2 ∨ op = 0x3 ∨ op = 0x4 ∨ op = 0x5 ∨ op = 0x6 ∨ op = 0x7 ∨ op = 0x8 ∨
    op = 0xF := by
  revert op
  decide

theorem instrOf_of_opReserved {f : ReqFields} (h : f.OpReserved) : instrOf f = none := by
  obtain ⟨hlo, hhi⟩ := h
  unfold instrOf
  split
  case h_11 => rfl
  all_goals bv_omega

/-- Row by row of R50's table: the fields that must be zero in a row are those its request does not carry. -/
theorem instrOf_spells {f : ReqFields} (h : ¬ f.OpReserved) :
    ∃ i, instrOf f = some i ∧ (f.ReservedZero → encodeFields i = f) := by
  obtain ⟨op, a, d⟩ := f
  have noData (hop : op ∈ [0x0#4, 0x2#4, 0x4#4, 0x6#4, 0x8#4]) (hz : (ReqFields.mk op a d).ReservedZero) :
      ReqFields.mk op a 0 = ⟨op, a, d⟩ := congrArg (ReqFields.mk op a) (hz.1 hop).symm
  have oneByte (hop : op ∈ [0x1#4, 0x5#4]) (hz : (ReqFields.mk op a d).ReservedZero) :
      ReqFields.mk op a (byteData (dataByte d)) = ⟨op, a, d⟩ := congrArg (ReqFields.mk op a) (byteData_dataByte (hz.2.1 hop))
  obtain hop | rfl | rfl | rfl | rfl | rfl | rfl | rfl | rfl | rfl | rfl := opcode_cases op
  · exact absurd hop h
  · exact ⟨.rdb a, rfl, noData (by decide)⟩
  · exact ⟨.wrb a (dataByte d), rfl, oneByte (by decide)⟩
  · exact ⟨.rdw a, rfl, noData (by decide)⟩
  · exact ⟨.wrw a d, rfl, fun _ => rfl⟩
  · exact ⟨.rdbn a, rfl, noData (by decide)⟩
  · exact ⟨.wrbn a (dataByte d), rfl, oneByte (by decide)⟩
  · exact ⟨.rdwn a, rfl, noData (by decide)⟩
  · exact ⟨.wrwn a d, rfl, fun _ => rfl⟩
  · exact ⟨.vrd a, rfl, noData (by decide)⟩
  · refine ⟨.reset, rfl, fun ⟨_, _, hreset⟩ => ?_⟩
    obtain ⟨haddr, hdata⟩ := hreset rfl
    exact congrArg₂ (ReqFields.mk 0xF) haddr.symm hdata.symm

/-! ### What the decoder answers -/

variable {w : ReqWord}

theorem decode_of_opReserved (h : (fieldsOf w).OpReserved) : decode w = .error (.reservedOp (fieldsOf w).op) := by
  simp only [decode, instrOf_of_opReserved h]

theorem decode_of_wellFormed (h : (fieldsOf w).WellFormed) : ∃ i, decode w = .ok i ∧ encode i = w := by
  obtain ⟨hop, hzero⟩ := h
  obtain ⟨i, hi, hencode⟩ := instrOf_spells hop
  refine ⟨i, by simp only [decode, hi, if_pos hzero], ?_⟩
  rw [encode, hencode hzero, packFields_fieldsOf]

theorem decode_of_not_reservedZero (hop : ¬ (fieldsOf w).OpReserved) (h : ¬ (fieldsOf w).ReservedZero) :
    decode w = .error .reservedField := by
  obtain ⟨i, hi, -⟩ := instrOf_spells hop
  simp only [decode, hi, if_neg h]

@[simp] theorem decode_encode (i : Instr) : decode (encode i) = .ok i := by
  simp only [decode, encode, fieldsOf_packFields, instrOf_encodeFields, if_pos (reservedZero_encodeFields i)]

/-- A word that decodes has well-formed fields: the two refusals answer no request. -/
theorem encode_of_decode {i : Instr} (h : decode w = .ok i) : encode i = w := by
  by_cases hop : (fieldsOf w).OpReserved
  · exact nomatch h.symm.trans (decode_of_opReserved hop)
  by_cases hzero : (fieldsOf w).ReservedZero
  · obtain ⟨j, hj, hencode⟩ := decode_of_wellFormed ⟨hop, hzero⟩
    obtain rfl := Except.ok.inj (h.symm.trans hj)
    exact hencode
  · exact nomatch h.symm.trans (decode_of_not_reservedZero hop hzero)

theorem decode_of_encode {i : Instr} (h : encode i = w) : decode w = .ok i := h ▸ decode_encode i

/-- Settles O5, from the two directions `decode_encode` and `encode_of_decode`. -/
theorem decodeEncodeAgree : Obligations.DecodeEncodeAgree := ⟨decode_encode, fun _ _ => encode_of_decode⟩

/-- Settles O6: each word is the encoding of its request. -/
theorem specWordsDecode : Obligations.SpecWordsDecode := by
  refine ⟨?_, ?_, ?_, ?_, ?_, ?_, ?_, ?_, ?_, ?_, ?_, ?_⟩ <;> exact decode_of_encode (by decide)

/-! ### The reserved encodings, by the numbers of a word -/

theorem opReserved_iff (w : ReqWord) : (fieldsOf w).OpReserved ↔ 9 ≤ w.toNat / 2 ^ 32 ∧ w.toNat / 2 ^ 32 ≤ 14 := by
  rw [← (fieldsOf_toNat w).1]
  exact Iff.rfl

theorem op_mem_iff (w : ReqWord) (ops : List (BitVec 4)) : (fieldsOf w).op ∈ ops ↔ w.toNat / 2 ^ 32 ∈ ops.map BitVec.toNat := by
  rw [← (fieldsOf_toNat w).1]
  exact (List.mem_map_of_injective BitVec.toNat_injective).symm

theorem reservedZero_iff (w : ReqWord) :
    (fieldsOf w).ReservedZero ↔
      (w.toNat / 2 ^ 32 ∈ [0, 2, 4, 6, 8] → w.toNat % 2 ^ 16 = 0) ∧
      (w.toNat / 2 ^ 32 ∈ [1, 5] → w.toNat % 2 ^ 16 / 2 ^ 8 = 0) ∧
      (w.toNat / 2 ^ 32 = 15 → w.toNat / 2 ^ 16 % 2 ^ 16 = 0 ∧ w.toNat % 2 ^ 16 = 0) := by
  obtain ⟨hop, haddr, hdata⟩ := fieldsOf_toNat w
  have hhigh : ((fieldsOf w).data.extractLsb' 8 8).toNat = w.toNat % 2 ^ 16 / 2 ^ 8 := by
    rw [← hdata]
    exact Machine.highByte_toNat _
  rw [ReqFields.ReservedZero, ReqFields.CarriesNoData, ReqFields.CarriesByte, ReqFields.IsReset, op_mem_iff, op_mem_iff,
    ← BitVec.toNat_inj, ← BitVec.toNat_inj, ← BitVec.toNat_inj, ← BitVec.toNat_inj, hop, haddr, hdata, hhigh]
  exact Iff.rfl

/-- Settles O4: the refusals and the acceptance of the decoder, with the fields read as numbers. -/
theorem reservedEncodingsRefused : Obligations.ReservedEncodingsRefused := by
  intro w
  have hop := opReserved_iff w
  have hzero := reservedZero_iff w
  simp only [List.mem_cons, List.not_mem_nil, or_false] at hzero ⊢
  have accepted (h : (fieldsOf w).WellFormed) : ∃ i, decode w = .ok i := (decode_of_wellFormed h).imp fun _ => And.left
  refine ⟨fun h => ?reservedOp, fun h hd => ?dataOfRead, fun h hd => ?dataOfByteWrite, fun h hd => ?fieldOfReset,
    fun h hd => accepted ?read, fun h hd => accepted ?byteWrite, fun h => accepted ?wordWrite, fun h ha hd => ?reset⟩
  case reservedOp =>
    rw [decode_of_opReserved (hop.2 h), ← (fieldsOf_toNat w).1, BitVec.ofNat_toNat, BitVec.setWidth_eq]
  case reset =>
    apply decode_of_encode
    apply BitVec.eq_of_toNat_eq
    rw [show (encode .reset).toNat = 15 * 2 ^ 32 from rfl]
    omega
  case dataOfRead | dataOfByteWrite | fieldOfReset =>
    apply decode_of_not_reservedZero
    · rw [hop]; omega
    · rw [hzero]; omega
  case read | byteWrite | wordWrite =>
    rw [ReqFields.WellFormed, hop, hzero]; omega

end Sys2Proof

namespace Sys2Proof.Machine

/-! ### A step and a word that spells no request -/

/-- R90, R91, D32: the phase decides the reason, and in UNBUILT and READY the encoding may. -/
theorem wordRefusal_eq (w : ReqWord) (r : RefusalReason) (p : Phase) :
    wordRefusal w r p =
      if p = .failed then .failed
      else if p = .unbuilt ∧ w.toNat / 2 ^ 32 ≠ 15 then .notBuilt
      else r := by
  cases p with
  | unbuilt => simp [namesReset_iff]
  | ready => rfl
  | failed => rfl

/-- Settles O2: of the three things a step can answer (`step_cases`), the queue's first word rules out idling and its decoding rules out
an answer, so the word is refused for the reason of `wordRefusal_eq`. -/
theorem stepRefusesUndecodedWord : Obligations.StepRefusesUndecodedWord := by
  intro s w rest r hq hd
  obtain ⟨hq', -⟩ | ⟨w', rest', i, hq', hd', -⟩ | ⟨w', rest', r', hq', hd', hstep⟩ := step_cases s
  · exact absurd (hq.symm.trans hq') (List.cons_ne_nil w rest)
  · obtain ⟨rfl, -⟩ := List.cons.inj (hq.symm.trans hq')
    exact nomatch hd.symm.trans hd'
  · obtain ⟨rfl, rfl⟩ := List.cons.inj (hq.symm.trans hq')
    obtain rfl := Except.error.inj (hd.symm.trans hd')
    rw [hstep, wordRefusal_eq]
    rfl

end Sys2Proof.Machine
end

section
/-! PROOFS. The statements of spec/30_encoding.md about request texts (R53, R54): what the assembler's words, digits and operands are, and
from them that every request's text assembles to it. -/

namespace Sys2Proof.Machine

/-! ### Words of a line -/

/-- A character that stands in a word whole: it starts no comment and separates nothing, in either letter case. -/
abbrev AsmPlain (c : Char) : Prop := c ≠ ';' ∧ asmBlank c.toLower = false ∧ c.toLower ≠ ','

/-- What the assembler reads as one word. -/
abbrev AsmToken (w : List Char) : Prop := w ≠ [] ∧ w.Forall AsmPlain

theorem AsmToken.plain {w : List Char} (h : AsmToken w) : ∀ c ∈ w, AsmPlain c := List.forall_iff_forall_mem.1 h.2

theorem assemble_eq {line : List Char} (h : ∀ c ∈ line, c ≠ ';') :
    assemble line = asmRequest (asmNoRequester (asmWords (asmLower line) [])) := by
  have : asmNoComment line = line := List.takeWhile_eq_self_iff.2 fun c hc => decide_eq_true (h c hc)
  rw [assemble, this]

theorem asmPush_reverse {w : List Char} (h : w ≠ []) (ws : List (List Char)) : asmPush w.reverse ws = w :: ws := by
  simp [asmPush, h]

@[simp] theorem asmWords_blank (cs : List Char) : asmWords (' ' :: cs) [] = asmWords cs [] := rfl

theorem asmWords_plain {w : List Char} (hw : ∀ c ∈ w, AsmPlain c) (cs cur : List Char) :
    asmWords (asmLower w ++ cs) cur = asmWords cs ((asmLower w).reverse ++ cur) := by
  induction w generalizing cur with
  | nil => rfl
  | cons c w ih =>
    obtain ⟨⟨-, hblank, hcomma⟩, hw⟩ := List.forall_mem_cons.1 hw
    simpa [asmLower, asmWords, hblank, hcomma] using ih hw (c.toLower :: cur)

theorem asmLower_ne_nil {w : List Char} (h : w ≠ []) : asmLower w ≠ [] := by simpa [asmLower] using h

theorem asmWords_token {w : List Char} (hw : AsmToken w) : asmWords (asmLower w) [] = [asmLower w] := by
  have h := asmWords_plain hw.plain [] []
  rw [List.append_nil, List.append_nil] at h
  rw [h]
  exact asmPush_reverse (asmLower_ne_nil hw.1) []

theorem asmWords_token_blank {w : List Char} (hw : AsmToken w) (cs : List Char) :
    asmWords (asmLower w ++ ' ' :: cs) [] = asmLower w :: asmWords cs [] := by
  rw [asmWords_plain hw.plain, List.append_nil]
  exact asmPush_reverse (asmLower_ne_nil hw.1) _

theorem asmWords_token_comma {w : List Char} (hw : AsmToken w) (cs : List Char) :
    asmWords (asmLower w ++ ',' :: cs) [] = asmLower w :: [','] :: asmWords cs [] := by
  rw [asmWords_plain hw.plain, List.append_nil]
  exact asmPush_reverse (asmLower_ne_nil hw.1) _

/-- R53: a line of a mnemonic and one operand. -/
theorem assemble_operand {m x : List Char} (hm : AsmToken m) (hx : AsmToken x) :
    assemble (m ++ ' ' :: x) = asmRequest (asmNoRequester [asmLower m, asmLower x]) := by
  have hline : ∀ c ∈ m ++ ' ' :: x, c ≠ ';' := by
    simp only [List.forall_mem_append, List.forall_mem_cons]
    exact ⟨fun c hc => (hm.plain c hc).1, by decide, fun c hc => (hx.plain c hc).1⟩
  rw [assemble_eq hline, show asmLower (m ++ ' ' :: x) = asmLower m ++ ' ' :: asmLower x from List.map_append,
    asmWords_token_blank hm, asmWords_token hx]

/-- R53: a line of a mnemonic and two operands. -/
theorem assemble_operands {m x y : List Char} (hm : AsmToken m) (hx : AsmToken x) (hy : AsmToken y) :
    assemble (m ++ ' ' :: (x ++ ',' :: ' ' :: y)) = asmRequest (asmNoRequester [asmLower m, asmLower x, [','], asmLower y]) := by
  have hline : ∀ c ∈ m ++ ' ' :: (x ++ ',' :: ' ' :: y), c ≠ ';' := by
    simp only [List.forall_mem_append, List.forall_mem_cons]
    exact ⟨fun c hc => (hm.plain c hc).1, by decide, fun c hc => (hx.plain c hc).1, by decide, by decide, fun c hc => (hy.plain c hc).1⟩
  have hlower : asmLower (m ++ ' ' :: (x ++ ',' :: ' ' :: y)) = asmLower m ++ ' ' :: (asmLower x ++ ',' :: ' ' :: asmLower y) := by
    simp [asmLower]
  rw [assemble_eq hline, hlower, asmWords_token_blank hm, asmWords_token_comma hx, asmWords_blank, asmWords_token hy]

/-! ### Digits and operands -/

/-- The sixteen digits: each is read as what it is written for, in lower case and in one word. -/
theorem asmDigitText_spec : ∀ n < 16, asmDigit (asmDigitText n) = some n ∧ (asmDigitText n).toLower = asmDigitText n ∧
    AsmPlain (asmDigitText n) := by
  decide

theorem asmHex_asmByteText_append (v : Byte) (cs : List Char) (n : Nat) :
    asmHex (asmByteText v ++ cs) n = asmHex cs (2 ^ 8 * n + v.toNat) := by
  have hv := v.isLt
  have hhi := (asmDigitText_spec (v.toNat / 16) (by omega)).1
  have hlo := (asmDigitText_spec (v.toNat % 16) (by omega)).1
  simp only [asmByteText, List.cons_append, List.nil_append, asmHex, hhi, hlo]
  congr 1
  omega

theorem asmHex_asmByteText (v : Byte) (n : Nat) : asmHex (asmByteText v) n = some (2 ^ 8 * n + v.toNat) := by
  rw [← List.append_nil (asmByteText v), asmHex_asmByteText_append, asmHex]

theorem asmHex_asmWordText (v : Word) : asmHex (asmWordText v) 0 = some v.toNat := by
  calc asmHex (asmWordText v) 0
      = asmHex (asmByteText (highByte v) ++ asmByteText (lowByte v)) 0 := rfl
    _ = some (2 ^ 8 * (2 ^ 8 * 0 + (highByte v).toNat) + (lowByte v).toNat) := by rw [asmHex_asmByteText_append, asmHex_asmByteText]
    _ = some v.toNat := by
      rw [highByte_toNat, lowByte_toNat]
      congr 1
      omega

@[simp] theorem asmAddr_asmAddrText (a : Addr) : asmAddr (asmAddrText a) = some a := by
  simp [asmAddr, asmAddrText, asmHex_asmWordText, show (asmWordText a).length = 4 from rfl]

@[simp] theorem asmByte_asmByteText (v : Byte) : asmByte ('#' :: '$' :: asmByteText v) = some v := by
  simp [asmByte, asmHex_asmByteText, show (asmByteText v).length = 2 from rfl]

@[simp] theorem asmWord_asmWordText (v : Word) : asmWord ('#' :: '$' :: asmWordText v) = some v := by
  simp [asmWord, asmHex_asmWordText, show (asmWordText v).length = 4 from rfl]

/-- A word that the assembler reads as it stands, being in lower case. -/
abbrev AsmOperand (w : List Char) : Prop := AsmToken w ∧ asmLower w = w

theorem AsmOperand.append {w x : List Char} (hw : AsmOperand w) (hx : AsmOperand x) : AsmOperand (w ++ x) := by
  obtain ⟨⟨hne, hplain⟩, hlower⟩ := hw
  obtain ⟨⟨-, hplain'⟩, hlower'⟩ := hx
  refine ⟨⟨List.append_ne_nil_of_left_ne_nil hne x, List.forall_append.2 ⟨hplain, hplain'⟩⟩, ?_⟩
  rw [asmLower, List.map_append]
  exact congrArg₂ _ hlower hlower'

theorem asmOperand_byteText (v : Byte) : AsmOperand (asmByteText v) := by
  have hv := v.isLt
  obtain ⟨-, hlower, hplain⟩ := asmDigitText_spec (v.toNat / 16) (by omega)
  obtain ⟨-, hlower', hplain'⟩ := asmDigitText_spec (v.toNat % 16) (by omega)
  refine ⟨⟨List.cons_ne_nil _ _, hplain, hplain'⟩, ?_⟩
  simp only [asmByteText, asmLower, List.map_cons, List.map_nil, hlower, hlower']

theorem asmOperand_wordText (v : Word) : AsmOperand (asmWordText v) := (asmOperand_byteText _).append (asmOperand_byteText _)

theorem asmOperand_addr (a : Addr) : AsmOperand (asmAddrText a) :=
  AsmOperand.append (w := ['$']) (by decide) (asmOperand_wordText a)

theorem asmOperand_byte (v : Byte) : AsmOperand ('#' :: '$' :: asmByteText v) :=
  AsmOperand.append (w := ['#', '$']) (by decide) (asmOperand_byteText v)

theorem asmOperand_word (v : Word) : AsmOperand ('#' :: '$' :: asmWordText v) :=
  AsmOperand.append (w := ['#', '$']) (by decide) (asmOperand_wordText v)

/-! ### The forms of a request -/

variable {m : List Char}

theorem assemble_addr {f : Addr → Instr} (hm : AsmToken m)
    (hf : ∀ x, asmRequest (asmNoRequester [asmLower m, x]) = (asmAddr x).map f) (a : Addr) :
    assemble (m ++ ' ' :: asmAddrText a) = some (f a) := by
  obtain ⟨haddr, hlower⟩ := asmOperand_addr a
  rw [assemble_operand hm haddr, hlower, hf, asmAddr_asmAddrText, Option.map_some]

/-- A write's data is a byte or a word, read by `parse`. -/
theorem assemble_addr_data {n : Nat} {parse : List Char → Option (BitVec n)} {f : Addr → BitVec n → Instr} {data : List Char}
    {v : BitVec n} (hdata : AsmOperand data) (hparse : parse data = some v) (hm : AsmToken m)
    (hf : ∀ x y, asmRequest (asmNoRequester [asmLower m, x, [','], y]) = (asmAddr x).bind fun a => (parse y).map (f a)) (a : Addr) :
    assemble (m ++ ' ' :: (asmAddrText a ++ ',' :: ' ' :: data)) = some (f a v) := by
  obtain ⟨haddr, hlower⟩ := asmOperand_addr a
  obtain ⟨htoken, hlower'⟩ := hdata
  rw [assemble_operands hm haddr htoken, hlower, hlower', hf, asmAddr_asmAddrText, hparse, Option.bind_some, Option.map_some]

/-- Settles O7, form by form of R53. -/
theorem assembleDisassembleAgree : Obligations.AssembleDisassembleAgree
  | .rdb a => assemble_addr (m := ['r', 'd', 'b']) (by decide) (fun _ => rfl) a
  | .wrb a v => assemble_addr_data (m := ['w', 'r', 'b']) (asmOperand_byte v) (asmByte_asmByteText v) (by decide) (fun _ _ => rfl) a
  | .rdw a => assemble_addr (m := ['r', 'd', 'w']) (by decide) (fun _ => rfl) a
  | .wrw a v => assemble_addr_data (m := ['w', 'r', 'w']) (asmOperand_word v) (asmWord_asmWordText v) (by decide) (fun _ _ => rfl) a
  | .rdbn a => assemble_addr (m := ['r', 'd', 'b', 'n']) (by decide) (fun _ => rfl) a
  | .wrbn a v => assemble_addr_data (m := ['w', 'r', 'b', 'n']) (asmOperand_byte v) (asmByte_asmByteText v) (by decide) (fun _ _ => rfl) a
  | .rdwn a => assemble_addr (m := ['r', 'd', 'w', 'n']) (by decide) (fun _ => rfl) a
  | .wrwn a v => assemble_addr_data (m := ['w', 'r', 'w', 'n']) (asmOperand_word v) (asmWord_asmWordText v) (by decide) (fun _ _ => rfl) a
  | .vrd a => assemble_addr (m := ['v', 'r', 'd']) (by decide) (fun _ => rfl) a
  | .reset => by decide

/-- R54: BANK, for every value. -/
theorem assemble_bank (v : Byte) : assemble ("BANK #$".toList ++ asmByteText v) = some (.wrb Parameters.r6.ctrlAddr v) := by
  obtain ⟨htoken, hlower⟩ := asmOperand_byte v
  calc assemble ("BANK #$".toList ++ asmByteText v)
      = assemble (['B', 'A', 'N', 'K'] ++ ' ' :: '#' :: '$' :: asmByteText v) := rfl
    _ = asmRequest (asmNoRequester [asmLower ['B', 'A', 'N', 'K'], '#' :: '$' :: asmByteText v]) := by
      rw [assemble_operand (by decide) htoken, hlower]
    _ = (asmByte ('#' :: '$' :: asmByteText v)).map (.wrb Parameters.r6.ctrlAddr) := rfl
    _ = some (.wrb Parameters.r6.ctrlAddr v) := by rw [asmByte_asmByteText, Option.map_some]

/-- Settles O8: BANK by `assemble_bank`; the other lines are closed texts, so what they assemble to is decided. -/
theorem pseudoRequestsExpand : Obligations.PseudoRequestsExpand := by
  have trigger : assemble "TRIGGER".toList = some (.wrb Parameters.triggerAddr Parameters.triggerValue) := by decide
  have peekLatch : assemble "PEEKLATCH".toList = some (.rdbn Parameters.r6.ctrlAddr) := by decide
  have bankFive : assemble "BANK #$05".toList = some (.wrb Parameters.r6.ctrlAddr 0x05) := assemble_bank 0x05
  have border : assemble "cpu: WRB $D020, #$0E ; border".toList = some (.wrb 0xD020 0x0E) := by decide
  refine ⟨assemble_bank, trigger, peekLatch, ?_, ?_, ?_, ?_⟩
  · rw [bankFive]; decide
  · rw [trigger]; decide
  · rw [peekLatch]; decide
  · rw [border]; decide

end Sys2Proof.Machine
end

section
/-! PROOFS. The statements of spec/40_address_space.md: what RamWrite changes (R56). -/

namespace Sys2Proof.Machine

/-- Settles O17: the two RAM clauses are `ramRead_ramWrite` at the stored address and at any other one. -/
theorem ramWriteChangesOneByte : Obligations.RamWriteChangesOneByte := by
  intro s a v
  refine ⟨?stored, fun x hx => ?kept, rfl⟩
  case stored => rw [ramRead_ramWrite, if_pos rfl]
  case kept => rw [ramRead_ramWrite, if_neg hx.symm]

end Sys2Proof.Machine
end

section
/-! PROOFS. The statements of spec/41_bank_controller.md: the mode equations (R61), the eight rows of the mode table (R62) and what loads
the latch (R64). -/

namespace Sys2Proof.Machine

/-! ### What a request does to the latch -/

variable {s : State}

/-- R63, R66: of everything a routed byte write can do (`writeByte_cases`), only the control write loads the latch. -/
theorem writeByte_latch_cases (a : Addr) (v : Byte) (s : State) :
    (writeByte a v s).latch = s.latch ∨ (a = s.cfg.map.ctrlAddr ∧ (writeByte a v s).latch = v) := by
  obtain ⟨ha, h⟩ | ⟨_, -, -, -, h⟩ | ⟨-, h⟩ | ⟨-, -, -, -, h⟩ := writeByte_cases a v s <;> rw [h]
  · exact .inr ⟨ha, rfl⟩
  · exact .inl rfl
  · exact .inl rfl
  · exact .inl rfl

/-- R68: a word write that leaves another latch loads it by its high byte, the later one, or else by its low byte. -/
theorem writeWord_latch_cases (a : Addr) (v : Word) (s : State) :
    (writeWord a v s).latch = s.latch ∨
    (a = s.cfg.map.ctrlAddr ∧ (writeWord a v s).latch = lowByte v) ∨
    (nextAddr a = s.cfg.map.ctrlAddr ∧ (writeWord a v s).latch = highByte v) := by
  obtain hhigh | ⟨hctrl, hhigh⟩ := writeByte_latch_cases (nextAddr a) (highByte v) (writeByte a (lowByte v) s)
  · rw [writeWord, hhigh]
    exact (writeByte_latch_cases a (lowByte v) s).imp_right .inl
  · rw [writeByte_cfg] at hctrl
    exact .inr (.inr ⟨hctrl, hhigh⟩)

theorem exec_reset_ready (h : s.phase = .ready) : exec .reset s = .next (refuse .alreadyBuilt s) := by
  simp only [exec, execReset, h]

/-- R64, request by request: what each leaves in the latch. -/
theorem exec_latch_cases (h : s.phase = .ready) (i : Instr) :
    ∃ t, exec i s = .next t ∧
      (t.latch = s.latch ∨ i = .wrb s.cfg.map.ctrlAddr t.latch ∨
        ∃ a v, i = .wrw a v ∧
          ((a = s.cfg.map.ctrlAddr ∧ t.latch = lowByte v) ∨ (nextAddr a = s.cfg.map.ctrlAddr ∧ t.latch = highByte v))) := by
  cases i with
  | rdb a => exact ⟨_, exec_rdb h a, .inl (readByte_latch a s)⟩
  | wrb a v =>
    refine ⟨_, exec_wrb h a v, ?_⟩
    obtain hkept | ⟨rfl, hloaded⟩ := writeByte_latch_cases a v s
    · exact .inl hkept
    · exact .inr (.inl (congrArg _ hloaded.symm))
  | rdw a => exact ⟨_, exec_rdw h a, .inl ((readByte_latch (nextAddr a) _).trans (readByte_latch a s))⟩
  | wrw a v => exact ⟨_, exec_wrw h a v, (writeWord_latch_cases a v s).imp_right fun hloaded => .inr ⟨a, v, rfl, hloaded⟩⟩
  | rdbn a => exact ⟨_, exec_rdbn h a, .inl rfl⟩
  | wrbn a v => exact ⟨_, exec_wrbn h a v, .inl rfl⟩
  | rdwn a => exact ⟨_, exec_rdwn h a, .inl rfl⟩
  | wrwn a v => exact ⟨_, exec_wrwn h a v, .inl rfl⟩
  | vrd a => exact ⟨_, exec_vrd h a, .inl rfl⟩
  | reset => exact ⟨_, exec_reset_ready h, .inl rfl⟩

/-- Settles O51: of the three things a step can answer (`step_cases`), idling and a refusal keep the latch, and an answered request does
with it what `exec_latch_cases` says. -/
theorem latchChangesOnlyThroughControlWrite : Obligations.LatchChangesOnlyThroughControlWrite := by
  intro s t hready hstep hne
  obtain ⟨-, h⟩ | ⟨w, rest, i, hq, hd, h⟩ | ⟨_, _, _, -, -, h⟩ := step_cases s
  · obtain rfl := Host.Outcome.next.inj (h.symm.trans hstep)
    exact absurd rfl hne
  · obtain ⟨u, hexec, hlatch⟩ := exec_latch_cases (s := { s with requests := rest }) hready i
    obtain rfl := Host.Outcome.next.inj ((h.trans hexec).symm.trans hstep)
    refine ⟨w, rest, hq, ?_⟩
    obtain hkept | rfl | ⟨a, v, rfl, hloaded⟩ := hlatch
    · exact absurd hkept hne
    · exact .inl ⟨u.latch, hd, rfl⟩
    · exact .inr ⟨a, v, hd, hloaded⟩
  · obtain rfl := Host.Outcome.next.inj (h.symm.trans hstep)
    exact absurd rfl hne

/-! ### The mode table -/

/-- Settles O11: the model's equations are over Bool, the statement's over Prop. -/
theorem modeEquations : Obligations.ModeEquations := by
  intro m v h l c
  refine ⟨rfl, ?basic, ?chario⟩
  case basic => simp only [modeOf, latchL, latchH, Bool.and_eq_true, l, h]
  case chario =>
    simp only [modeOf, latchC, latchL, latchH, Bool.and_eq_true, Bool.or_eq_true, Bool.not_eq_true', Bool.not_eq_true, and_assoc,
      c, l, h]

/-- D6, D29: under R6's bit positions the mode table depends on the latch's low three bits alone. -/
theorem modeOf_r6_eq_of_lowBits {v : Byte} {bits : BitVec 3} (h : v.extractLsb' 0 3 = bits) :
    modeOf Parameters.r6 v = modeOf Parameters.r6 (bits.setWidth 8) := by
  subst h
  simp [modeOf, latchH, latchL, latchC, Parameters.r6]

/-- Settles O12: each row's byte stands for every latch byte with its low three bits (`modeOf_r6_eq_of_lowBits`), and the rows are
decided. -/
theorem modeTableEightCases : Obligations.ModeTableEightCases := by
  intro v
  refine ⟨?_, ?_, ?_, ?_, ?_, ?_, ?_, ?_⟩ <;> exact fun h => (modeOf_r6_eq_of_lowBits h).trans (by decide)

end Sys2Proof.Machine
end

section
/-! PROOFS. The statements of spec/42_bus_router.md: the no-I/O requests (R70 to R73), the routed byte requests (R66, R67) and their frames
(R74), the word requests as two byte requests (R68, R69), and the two read-after-write properties P5 and P6 (R74). -/

namespace Sys2Proof.Machine

/-! ### The no-I/O requests -/

/-- Settles O18: WRBN's effect is one `ramWrite`, whose RAM frame is `ramRead_ramWrite`. -/
theorem wrbnStoresOneRamByte : Obligations.WrbnStoresOneRamByte := by
  intro s a v hready
  refine ⟨respond .ack (ramWrite a v s), exec_wrbn hready a v, rfl, ?stored, fun x hx => ?kept⟩
  case stored => rw [ramRead_respond, ramRead_ramWrite, if_pos rfl]
  case kept => rw [ramRead_respond, ramRead_ramWrite, if_neg hx.symm]

/-- Settles O19: RDBN's effect is the recorded response alone (`exec_rdbn`). -/
theorem rdbnReturnsRam : Obligations.RdbnReturnsRam := fun _ a hready => exec_rdbn hready a

/-- Settles O20: WRWN's effect is two `ramWrite`s, at addresses that differ (`nextAddr_ne`), so neither store undoes the other. -/
theorem wrwnStoresTwoRamBytes : Obligations.WrwnStoresTwoRamBytes := by
  intro s a v hready
  refine ⟨respond .ack (ramWrite (nextAddr a) (highByte v) (ramWrite a (lowByte v) s)), exec_wrwn hready a v, rfl, ?low, ?high,
    fun x hlow hhigh => ?kept⟩
  case low => rw [ramRead_respond, ramRead_ramWrite, if_neg (nextAddr_ne a), ramRead_ramWrite, if_pos rfl]; rfl
  case high => rw [ramRead_respond, ramRead_ramWrite]; exact if_pos rfl
  case kept =>
    rw [ramRead_respond, ramRead_ramWrite, if_neg (show nextAddr a ≠ x from Ne.symm hhigh), ramRead_ramWrite, if_neg (Ne.symm hlow)]

/-- Settles O21: RDWN's effect is the recorded response alone (`exec_rdwn`). -/
theorem rdwnReturnsRamWord : Obligations.RdwnReturnsRamWord := fun _ a hready => exec_rdwn hready a

/-! ### A routed byte, address by address -/

/-- R34, R67: a routed read along the chain of read decode. -/
theorem readByte_eq (a : Addr) (s : State) : readByte a s =
    if s.cfg.map.vicWin.Has a then peripheralLoad .vic a s
    else if s.cfg.map.cia1Win.Has a then peripheralLoad .cia1 a s
    else if s.cfg.map.cia2Win.Has a then peripheralLoad .cia2 a s
    else if s.cfg.map.basicWin.Has a then (overlayRead s.mode.basic a s, s)
    else if s.cfg.map.kernalWin.Has a then (overlayRead s.mode.kernal a s, s)
    else (ramRead s a, s) := by
  simp only [readByte, readClass]
  split_ifs <;> rfl

/-- R33, R66: a routed write along the chain of write decode. -/
theorem writeByte_eq (a : Addr) (v : Byte) (s : State) : writeByte a v s =
    if a = s.cfg.map.ctrlAddr then setConfig v s
    else if s.cfg.map.vicWin.Has a then peripheralStore .vic a v s
    else if s.cfg.map.cia1Win.Has a then peripheralStore .cia1 a v s
    else if s.cfg.map.cia2Win.Has a then peripheralStore .cia2 a v s
    else if s.cfg.map.sidWin.Has a then peripheralStore .sid a v s
    else defaultStore a v s := by
  simp only [writeByte, writeClass]
  split_ifs <;> rfl

/-- R35, R67: a read of a peripheral's window other than the video chip's, which has no ROM overlay. -/
theorem answerByte_peripheralLoad {d : Device} (hd : d ≠ .vic) (a : Addr) (s : State) : answerByte (peripheralLoad d a s) =
    if s.mode.chario = .io then answerByte (devRead d (devOffset d a) s) else answerByte (ramRead s a, s) := by
  rw [peripheralLoad, if_neg hd, apply_ite answerByte]

/-- R35, R66: a write to a peripheral's window. -/
theorem respond_peripheralStore (r : Response) (d : Device) (a : Addr) (v : Byte) (s : State) : respond r (peripheralStore d a v s) =
    if s.mode.chario = .io then respond r (devWrite d (devOffset d a) v s) else respond r (ramWrite a v s) := by
  rw [peripheralStore, apply_ite (respond r)]

/-- Settles O22: `readByte_eq`, window by window. -/
theorem routedReadByClass : Obligations.RoutedReadByClass := by
  intro s a hready
  rw [exec_rdb hready, readByte_eq]
  refine congrArg Host.Outcome.next ?_
  dsimp only
  split
  · rw [peripheralLoad]
    cases s.mode.chario <;> rfl
  split
  · exact answerByte_peripheralLoad (by decide) a s
  split
  · exact answerByte_peripheralLoad (by decide) a s
  split
  · rfl
  split
  · rfl
  · rfl

/-- Settles O23: `writeByte_eq`, address by address. -/
theorem routedWriteByClass : Obligations.RoutedWriteByClass := by
  intro s a v hready m io acked stored device
  rw [exec_wrb hready, writeByte_eq]
  refine congrArg Host.Outcome.next ?_
  split
  · next hctrl => subst hctrl; rfl
  split
  · exact respond_peripheralStore .ack .vic a v s
  split
  · exact respond_peripheralStore .ack .cia1 a v s
  split
  · exact respond_peripheralStore .ack .cia2 a v s
  split
  · exact respond_peripheralStore .ack .sid a v s
  · rw [defaultStore, apply_ite (respond .ack)]; rfl

/-! ### The frame of a routed write -/

/-- R66: a routed write touches RAM, the latch and the trace at most. -/
theorem writeByte_frame (a : Addr) (v : Byte) (s : State) : writeByte a v s =
    { s with ram := (writeByte a v s).ram, latch := (writeByte a v s).latch, trace := (writeByte a v s).trace } := by
  obtain ⟨-, h⟩ | ⟨_, -, -, -, h⟩ | ⟨-, h⟩ | ⟨-, -, -, -, h⟩ := writeByte_cases a v s <;> rw [h] <;> rfl

/-- R66, R74 (P2): the event a routed write records, if any. -/
theorem writeByte_trace_cases (a : Addr) (v : Byte) (s : State) :
    (writeByte a v s).trace = s.trace ∨
    (∃ d : Device, (writeByte a v s).trace = s.trace ++ [.pwr d (devOffset d a) v] ∧ (writeByte a v s).ram = s.ram ∧
      s.mode.chario = .io ∧ (d.window s.cfg.map).Has a) ∨
    ((writeByte a v s).trace = s.trace ++ [.hook] ∧ a = Parameters.triggerAddr ∧ v = Parameters.triggerValue) := by
  obtain ⟨-, h⟩ | ⟨d, -, hwin, hio, h⟩ | ⟨-, h⟩ | ⟨-, -, ha, hv, h⟩ := writeByte_cases a v s <;> rw [h]
  · exact .inl rfl
  · exact .inr (.inl ⟨d, rfl, rfl, hio, hwin⟩)
  · exact .inl rfl
  · exact .inr (.inr ⟨rfl, ha, hv⟩)

/-- R82: the hook leaves RAM where no payload lies as it was. -/
theorem ramRead_runHook {s : State} {x : Addr} (h : ¬ hookCovers s.cfg x) : ramRead (runHook s) x = ramRead s x :=
  patchRam_outside s.cfg x s.ram h

/-- R66, R74 (P2): a routed write leaves RAM at every other address as it was, but where its hook lays a payload. -/
theorem ramRead_writeByte_of_ne {a x : Addr} {v : Byte} {s : State} (hx : x ≠ a)
    (hhook : a = Parameters.triggerAddr → v = Parameters.triggerValue → ¬ hookCovers s.cfg x) :
    ramRead (writeByte a v s) x = ramRead s x := by
  obtain ⟨rfl, h⟩ | ⟨_, -, -, -, h⟩ | ⟨-, h⟩ | ⟨-, -, ha, hv, h⟩ := writeByte_cases a v s <;> rw [h]
  · rw [ramRead_setConfig, if_neg hx.symm]
  · rfl
  · rw [ramRead_ramWrite, if_neg hx.symm]
  · rw [ramRead_runHook (s := ramWrite a v s) (hhook ha hv), ramRead_ramWrite, if_neg hx.symm]

/-- Settles O24, clause by clause: `writeByte_frame`, `writeByte_latch_cases`, `ramRead_writeByte_of_ne`, `writeByte_trace_cases`. -/
theorem routedWriteFrame : Obligations.RoutedWriteFrame := by
  intro s a v hready
  refine ⟨respond .ack (writeByte a v s), exec_wrb hready a v, ?frame, fun hctrl => ?latch, fun htrigger x hx => ?ram, ?trace⟩
  case frame => rw [writeByte_frame]; rfl
  case latch => exact (writeByte_latch_cases a v s).resolve_right fun h => hctrl h.1
  case ram => exact ramRead_writeByte_of_ne hx fun ha hv => absurd ⟨ha, hv⟩ htrigger
  case trace =>
    exact (writeByte_trace_cases a v s).imp_right <| .imp_left fun ⟨d, htrace, hram, hio, hwin⟩ =>
      ⟨d, devOffset d a, htrace, hram, hio, hwin, devOffset_le d a⟩

/-- R66 (e): under a well-formed map the trigger's value at the trigger's address is stored and runs the hook. -/
theorem writeByte_trigger {s : State} (hwf : s.cfg.map.WellFormed) :
    writeByte Parameters.triggerAddr Parameters.triggerValue s =
      runHook (ramWrite Parameters.triggerAddr Parameters.triggerValue s) := by
  simp only [writeByte, writeClass_trigger hwf, defaultStore, and_self, if_true]

/-- Settles O35: the trigger store records HOOK (`writeByte_trigger`), and of the three things a routed write can do to the trace
(`writeByte_trace_cases`) only the trigger store's adds HOOK. -/
theorem hookOnlyAtTrigger : Obligations.HookOnlyAtTrigger := by
  intro s a v hwf hready
  refine ⟨respond .ack (writeByte a v s), exec_wrb hready a v, fun hhook => ?only, ?records⟩
  case records =>
    rintro ⟨rfl, rfl⟩
    exact congrArg State.trace (writeByte_trigger hwf)
  case only =>
    obtain hkept | ⟨d, hpwr, -⟩ | ⟨-, ha, hv⟩ := writeByte_trace_cases a v s
    · exact absurd (hkept.symm.trans hhook) (by simp)
    · exact absurd (hpwr.symm.trans hhook) (by simp)
    · exact ⟨ha, hv⟩

/-! ### The frame of a read -/

/-- `t` is `s` after reading alone: the events stand at the end of the trace, and answers may have been drawn (R67 (f), R74 P3). -/
def ReadsOnly (s t : State) (es : List Event) : Prop :=
  t = { s with trace := s.trace ++ es, devAnswers := t.devAnswers, vicBases := t.vicBases, draws := t.draws }

theorem ReadsOnly.refl (s : State) : ReadsOnly s s [] := by
  rw [ReadsOnly, List.append_nil]

theorem ReadsOnly.trans {s t u : State} {es fs : List Event} (h : ReadsOnly s t es) (k : ReadsOnly t u fs) :
    ReadsOnly s u (es ++ fs) := by
  rw [ReadsOnly, k, h, ← List.append_assoc]

theorem readsOnly_readByte (a : Addr) (s : State) : ∃ es, ReadsOnly s (readByte a s).2 es ∧ es.length ≤ 1 := by
  obtain h | h | ⟨d, -, -, -, h⟩ := readByte_cases a s <;> rw [h]
  · exact ⟨[], .refl s, Nat.zero_le 1⟩
  · exact ⟨[], .refl s, Nat.zero_le 1⟩
  · exact ⟨[.prd d (devOffset d a) (nextDevByte s)], rfl, Nat.le_refl 1⟩

/-- An answered read leaves what its reading leaves, and its response. -/
theorem ReadsOnly.respond {s t : State} {es : List Event} (h : ReadsOnly s t es) (v : Word) :
    respond (.data v) t = { s with trace := s.trace ++ es, devAnswers := t.devAnswers, vicBases := t.vicBases, draws := t.draws,
                                   responses := s.responses ++ [.data v] } :=
  congrArg (Machine.respond (.data v)) h

/-- Settles O25, request by request: each answers a response over a state that `ReadsOnly` relates to the old one. -/
theorem readFrame : Obligations.ReadFrame := by
  intro s a i hready hi
  simp only [List.mem_cons, List.not_mem_nil, or_false] at hi
  obtain rfl | rfl | rfl | rfl | rfl := hi
  · obtain ⟨es, h, hes⟩ := readsOnly_readByte a s
    exact ⟨_, _, es, exec_rdb hready a, h.respond _, nofun, fun _ => hes⟩
  · obtain ⟨es, h, -⟩ := readsOnly_readByte a s
    obtain ⟨fs, k, -⟩ := readsOnly_readByte (nextAddr a) (readByte a s).2
    exact ⟨_, _, es ++ fs, exec_rdw hready a, (h.trans k).respond _, nofun, nofun⟩
  · exact ⟨_, _, [], exec_rdbn hready a, (ReadsOnly.refl s).respond _, fun _ => rfl, nofun⟩
  · exact ⟨_, _, [], exec_rdwn hready a, (ReadsOnly.refl s).respond _, fun _ => rfl, nofun⟩
  · exact ⟨_, _, [.vbase (nextVicBase s)], exec_vrd hready a,
      ReadsOnly.respond (t := (vicBase s).2) rfl _, nofun, nofun⟩

/-! ### A word request is two byte requests -/

@[simp] theorem writeWord_cfg (a : Addr) (v : Word) (s : State) : (writeWord a v s).cfg = s.cfg := by
  rw [writeWord, writeByte_cfg, writeByte_cfg]

@[simp] theorem writeWord_phase (a : Addr) (v : Word) (s : State) : (writeWord a v s).phase = s.phase := by
  rw [writeWord, writeByte_phase, writeByte_phase]

@[simp] theorem writeWord_responses (a : Addr) (v : Word) (s : State) : (writeWord a v s).responses = s.responses := by
  rw [writeWord, writeByte_responses, writeByte_responses]

@[simp] theorem readWord_responses (a : Addr) (s : State) : (readWord a s).2.responses = s.responses := by
  rw [readWord, readByte_responses, readByte_responses]

/-- Settles O28: the low byte's acknowledgement moves past the high byte's write (`writeByte_respond`). -/
theorem wordWriteIsTwoByteWrites : Obligations.WordWriteIsTwoByteWrites := by
  intro s a v hready
  have hready' : (respond .ack (writeByte a (lowByte v) s)).phase = .ready := (writeByte_phase a (lowByte v) s).trans hready
  refine ⟨_, _, exec_wrb hready a (lowByte v), exec_wrb hready' (nextAddr a) (highByte v), ?_⟩
  rw [exec_wrw hready, writeByte_respond, ← writeWord_responses a v s]
  rfl

/-- Settles O29: the low byte's response moves past the high byte's read (`readByte_respond`). -/
theorem wordReadIsTwoByteReads : Obligations.WordReadIsTwoByteReads := by
  intro s a hready
  have hready' : (answerByte (readByte a s)).phase = .ready := (readByte_phase a s).trans hready
  have hlow : (answerByte (readByte a s)).responses = s.responses ++ [.data (zext16 (readByte a s).1)] := by
    rw [answerByte, respond_responses, readByte_responses]
  have hhigh : readByte (nextAddr a) (answerByte (readByte a s)) =
      ((readByte (nextAddr a) (readByte a s).2).1,
        respond (.data (zext16 (readByte a s).1)) (readByte (nextAddr a) (readByte a s).2).2) := readByte_respond _ _ _
  refine ⟨_, _, (readByte a s).1, (readByte (nextAddr a) (readByte a s).2).1, exec_rdb hready a, hlow,
    exec_rdb hready' (nextAddr a), ?_, ?_⟩
  · rw [hhigh, answerByte, respond_responses, respond_responses, readByte_responses, answerByte, respond_responses]; rfl
  · rw [exec_rdw hready, hhigh, ← readWord_responses a s]; rfl

/-! ### Word writes at CTRL_ADDR and TRIGGER_ADDR -/

/-- A routed write of default class anywhere but at TRIGGER_ADDR is a plain store. -/
theorem writeByte_plain {s : State} {a : Addr} (h : writeClass s.cfg.map a = .default) (ht : a ≠ Parameters.triggerAddr) (v : Byte) :
    writeByte a v s = ramWrite a v s := by
  simp only [writeByte, h, defaultStore, ht, false_and, if_false]

/-- R68 (b): a word write whose high byte goes to CTRL_ADDR. -/
theorem writeWord_high_ctrl {s : State} {a : Addr} (hlow : writeClass s.cfg.map a = .default) (ht : a ≠ Parameters.triggerAddr)
    (hhigh : nextAddr a = s.cfg.map.ctrlAddr) (hi lo : Byte) :
    writeWord a (joinBytes hi lo) s = setConfig hi (ramWrite a lo s) := by
  rw [writeWord, lowByte_joinBytes, highByte_joinBytes, writeByte_plain hlow ht, hhigh]
  exact writeByte_ctrl hi (ramWrite a lo s)

/-- R68 (c): a word write whose low byte goes to CTRL_ADDR. -/
theorem writeWord_low_ctrl {s : State} (hhigh : writeClass s.cfg.map (nextAddr s.cfg.map.ctrlAddr) = .default)
    (ht : nextAddr s.cfg.map.ctrlAddr ≠ Parameters.triggerAddr) (hi lo : Byte) :
    writeWord s.cfg.map.ctrlAddr (joinBytes hi lo) s = ramWrite (nextAddr s.cfg.map.ctrlAddr) hi (setConfig lo s) := by
  rw [writeWord, lowByte_joinBytes, highByte_joinBytes, writeByte_ctrl]
  exact writeByte_plain (s := setConfig lo s) hhigh ht hi

/-- R68 (e): a word write whose low byte is the trigger store. -/
theorem writeWord_low_trigger {s : State} (hwf : s.cfg.map.WellFormed)
    (hhigh : writeClass s.cfg.map (nextAddr Parameters.triggerAddr) = .default) (hi : Byte) :
    writeWord Parameters.triggerAddr (joinBytes hi Parameters.triggerValue) s =
      ramWrite (nextAddr Parameters.triggerAddr) hi (runHook (ramWrite Parameters.triggerAddr Parameters.triggerValue s)) := by
  rw [writeWord, lowByte_joinBytes, highByte_joinBytes, writeByte_trigger hwf]
  exact writeByte_plain (s := runHook (ramWrite Parameters.triggerAddr Parameters.triggerValue s)) hhigh (nextAddr_ne _) hi

/-- Settles O30: the byte at 0x0001 is `setConfig`'s and the other one a plain store (`writeWord_high_ctrl`, `writeWord_low_ctrl`); the
two addresses differ. -/
theorem wordWriteAcrossControl : Obligations.WordWriteAcrossControl := by
  intro s hi lo hmap hready
  have hctrl : s.cfg.map.ctrlAddr = 0x0001 := by rw [hmap]; rfl
  constructor
  case left =>
    have hwrite : writeWord 0x0000 (joinBytes hi lo) s = setConfig hi (ramWrite 0x0000 lo s) :=
      writeWord_high_ctrl (a := 0x0000) (by rw [hmap]; decide) (by decide) hctrl.symm hi lo
    have hread (x : Addr) : ramRead (setConfig hi (ramWrite 0x0000 lo s)) x =
        if 0x0001 = x then hi else if 0x0000 = x then lo else ramRead s x := by
      rw [ramRead_setConfig, ramWrite_cfg, hctrl, ramRead_ramWrite]
    refine ⟨respond .ack (setConfig hi (ramWrite 0x0000 lo s)), ?_, rfl, rfl, hread 0x0000, hread 0x0001, fun x h0 h1 => ?_⟩
    · rw [← hwrite]; exact exec_wrw hready 0x0000 (joinBytes hi lo)
    · rw [ramRead_respond, hread, if_neg h1.symm, if_neg h0.symm]
  case right =>
    have hwrite : writeWord 0x0001 (joinBytes hi lo) s = ramWrite 0x0002 hi (setConfig lo s) := by
      have h := writeWord_low_ctrl (s := s) (by rw [hmap]; decide) (by rw [hmap]; decide) hi lo
      rwa [hctrl] at h
    have hread (x : Addr) : ramRead (ramWrite 0x0002 hi (setConfig lo s)) x =
        if 0x0002 = x then hi else if 0x0001 = x then lo else ramRead s x := by
      rw [ramRead_ramWrite, ramRead_setConfig, hctrl]
    refine ⟨respond .ack (ramWrite 0x0002 hi (setConfig lo s)), ?_, rfl, rfl, hread 0x0001, hread 0x0002, fun x h1 h2 => ?_⟩
    · rw [← hwrite]; exact exec_wrw hready 0x0001 (joinBytes hi lo)
    · rw [ramRead_respond, hread, if_neg h2.symm, if_neg h1.symm]

theorem wellFormed_of_r6 {m : AddressMap} (h : m = Parameters.r6) : m.WellFormed := h ▸ r6ValuesWellFormed

/-- Settles O31: the high byte is a plain store over the RAM that the hook leaves (`writeWord_low_trigger`). -/
theorem wordTriggerRunsHookBeforeHighByte : Obligations.WordTriggerRunsHookBeforeHighByte := by
  intro s hi hmap hready
  have hwrite := writeWord_low_trigger (s := s) (wellFormed_of_r6 hmap) (by rw [hmap]; decide) hi
  refine ⟨respond .ack (ramWrite 0x013A hi (runHook (ramWrite 0x0139 0xFF s))), ?_, rfl, rfl, ?_, fun x hx => ?_⟩
  · exact (exec_wrw hready _ _).trans (congrArg (Host.Outcome.next ∘ respond .ack) hwrite)
  · rw [ramRead_respond, ramRead_ramWrite, if_pos rfl]
  · rw [ramRead_respond, ramRead_ramWrite, if_neg hx.symm]; rfl

/-! ### Read after write (P5, P6)

Where P5 holds of an address and a byte, the address is backed by RAM on both ways: the write stores the byte, the hook does not replace
it, and the read shows RAM. -/

/-- Read decode of a peripheral's window: the sound chip's has no read class of its own (R34). -/
theorem readClass_of_window {m : AddressMap} (hwf : m.WellFormed) {d : Device} {a : Addr} (ha : (d.window m).Has a) :
    readClass m a = .peripheral d ∨ (d = .sid ∧ readClass m a = .default) := by
  by_cases hd : d = .sid
  · subst hd; exact .inr ⟨rfl, readClass_sid hwf ha⟩
  · exact .inl (readClass_peripheral hwf hd ha)

theorem Transparent.not_device {c : Config} {mode : ModeTable} {a : Addr} {v : Byte} (h : Transparent c mode a v)
    (hwf : c.map.WellFormed) {d : Device} (ha : (d.window c.map).Has a) : mode.chario ≠ .io := by
  intro hio
  obtain hclass | ⟨rfl, hclass⟩ := readClass_of_window hwf ha
  · simp [Transparent, hclass, hio] at h
  · obtain ⟨-, hsound, -⟩ | hoverlay | hwindow := h
    · exact hsound ⟨ha, hio⟩
    · simp [hclass] at hoverlay
    · simp [hio] at hwindow

theorem Transparent.not_patched {c : Config} {mode : ModeTable} (hwf : c.map.WellFormed)
    (h : Transparent c mode Parameters.triggerAddr Parameters.triggerValue) : ¬ hookCovers c Parameters.triggerAddr := by
  have outside (d : Device) : ¬ (d.window c.map).Has Parameters.triggerAddr := trigger_outside hwf (window_mem_switchedWindows _ d)
  obtain ⟨-, -, hkept⟩ | hoverlay | (⟨⟨d, hwin⟩, -⟩ | ⟨hwin | hwin, -⟩) := h
  · exact fun hcovers => hkept ⟨rfl, rfl, hcovers⟩
  · simp [readClass_trigger hwf] at hoverlay
  · exact absurd hwin (outside d)
  · exact absurd hwin (outside .cia1)
  · exact absurd hwin (outside .cia2)

/-- R74 (P5), the write: the byte stands in RAM after it. -/
theorem ramRead_writeByte_self {s : State} {a : Addr} {v : Byte} (hwf : s.cfg.map.WellFormed) (h : Transparent s.cfg s.mode a v) :
    ramRead (writeByte a v s) a = v := by
  obtain ⟨rfl, hw⟩ | ⟨d, -, hwin, hio, -⟩ | ⟨-, hw⟩ | ⟨-, -, rfl, rfl, hw⟩ := writeByte_cases a v s
  · rw [hw, ramRead_setConfig_ctrl]
  · exact absurd hio (h.not_device hwf hwin)
  · rw [hw, ramRead_ramWrite, if_pos rfl]
  · rw [hw, ramRead_runHook (s := ramWrite _ _ s) (h.not_patched hwf), ramRead_ramWrite, if_pos rfl]

/-- R74 (P5), the read: it shows RAM and draws no answer. -/
theorem readByte_of_transparent {s : State} {a : Addr} {v : Byte} (hwf : s.cfg.map.WellFormed) (h : Transparent s.cfg s.mode a v) :
    readByte a s = (ramRead s a, s) := by
  have window {d : Device} (ha : (d.window s.cfg.map).Has a) (hshows : s.mode.chario = .ram ∨ d ≠ .vic) :
      readByte a s = (ramRead s a, s) := by
    obtain hclass | ⟨-, hclass⟩ := readClass_of_window hwf ha
    · simp only [readByte, hclass, peripheralLoad, if_neg (h.not_device hwf ha), overlayRead]
      obtain hram | hne := hshows
      · simp [hram]
      · simp [hne]
    · exact readByte_default hclass
  obtain ⟨hclass, -⟩ | (⟨hclass, hram⟩ | ⟨hclass, hram⟩) | (⟨⟨d, ha⟩, hram⟩ | ⟨ha | ha, -⟩) := h
  · exact readByte_default hclass
  · simp [readByte, hclass, overlayRead, hram]
  · simp [readByte, hclass, overlayRead, hram]
  · exact window ha (.inl hram)
  · exact window (d := .cia1) ha (.inr (by decide))
  · exact window (d := .cia2) ha (.inr (by decide))

theorem writeByte_mode_cases (a : Addr) (v : Byte) (s : State) :
    (writeByte a v s).mode = s.mode ∨ a = s.cfg.map.ctrlAddr :=
  (writeByte_latch_cases a v s).imp (fun h => by rw [State.mode, State.mode, writeByte_cfg, h]) And.left

theorem transparent_ctrl {c : Config} (hwf : c.map.WellFormed) (mode : ModeTable) (v : Byte) :
    Transparent c mode c.map.ctrlAddr v :=
  .inl ⟨readClass_ctrl hwf, fun h => ctrl_outside hwf (by simp) h.1, fun h => trigger_ne_ctrl hwf h.1.symm⟩

/-- Settles O32: the write stores the byte (`ramRead_writeByte_self`); it changes MODE only at CTRL_ADDR, where P5 holds in every mode, so
the read shows RAM (`readByte_of_transparent`). -/
theorem writeReadTransparency : Obligations.WriteReadTransparency := by
  intro s a v hwf hready h
  have hready' : (respond .ack (writeByte a v s)).phase = .ready := (writeByte_phase a v s).trans hready
  have hmode : Transparent s.cfg (writeByte a v s).mode a v := by
    obtain hkept | rfl := writeByte_mode_cases a v s
    · rwa [hkept]
    · exact transparent_ctrl hwf _ v
  have hread : readByte a (writeByte a v s) = (v, writeByte a v s) := by
    rw [readByte_of_transparent (v := v) (by rwa [writeByte_cfg]) (by rwa [writeByte_cfg]), ramRead_writeByte_self hwf h]
  refine ⟨_, _, exec_wrb hready a v, exec_rdb hready' a, ?_⟩
  rw [readByte_respond, hread]
  simp [answerByte, zext16]

/-- R74 (P6): under R6's values the address before CTRL_ADDR is of default class, so P5 holds of it in every mode. -/
theorem transparent_before_ctrl {c : Config} (hmap : c.map = Parameters.r6) {a : Addr} (ha : nextAddr a = c.map.ctrlAddr)
    (mode : ModeTable) (v : Byte) : Transparent c mode a v := by
  obtain rfl : a = 0x0000 := by
    have ha : a + 1 = 0x0001 := by rw [hmap] at ha; exact ha
    bv_omega
  exact .inl ⟨by rw [hmap]; decide, by rw [hmap]; exact fun h => absurd h.1 (by decide), fun h => absurd h.1 (by decide)⟩

/-- R74 (P6): what P5 says of the low byte under MODE after the word, it says under MODE before it. -/
theorem transparent_low_of_writeWord {s : State} {a : Addr} {v : Word} (hmap : s.cfg.map = Parameters.r6)
    (h : Transparent s.cfg (writeWord a v s).mode a (lowByte v)) : Transparent s.cfg s.mode a (lowByte v) := by
  obtain hhigh | hctrl := writeByte_mode_cases (nextAddr a) (highByte v) (writeByte a (lowByte v) s)
  · obtain hlow | rfl := writeByte_mode_cases a (lowByte v) s
    · rwa [writeWord, hhigh, hlow] at h
    · exact transparent_ctrl (wellFormed_of_r6 hmap) _ _
  · rw [writeByte_cfg] at hctrl
    exact transparent_before_ctrl hmap hctrl _ _

/-- R74 (P6): what P5 says of the high byte under MODE after the word, it says under MODE between its two writes. -/
theorem transparent_high_of_writeWord {s : State} {a : Addr} {v : Word} (hwf : s.cfg.map.WellFormed)
    (h : Transparent s.cfg (writeWord a v s).mode (nextAddr a) (highByte v)) :
    Transparent s.cfg (writeByte a (lowByte v) s).mode (nextAddr a) (highByte v) := by
  obtain hhigh | hctrl := writeByte_mode_cases (nextAddr a) (highByte v) (writeByte a (lowByte v) s)
  · rwa [writeWord, hhigh] at h
  · rw [writeByte_cfg] at hctrl
    rw [hctrl]
    exact transparent_ctrl hwf _ _

/-- R74 (P6), the write: both bytes stand in RAM after it, the hook of the high byte's write leaving the low one. -/
theorem ramRead_writeWord_self {s : State} {a : Addr} {v : Word} (hwf : s.cfg.map.WellFormed)
    (hlow : Transparent s.cfg s.mode a (lowByte v))
    (hhigh : Transparent s.cfg (writeByte a (lowByte v) s).mode (nextAddr a) (highByte v))
    (hhook : nextAddr a = Parameters.triggerAddr → highByte v = Parameters.triggerValue → ¬ hookCovers s.cfg a) :
    ramRead (writeWord a v s) a = lowByte v ∧ ramRead (writeWord a v s) (nextAddr a) = highByte v := by
  rw [writeWord]
  constructor
  case left =>
    rw [ramRead_writeByte_of_ne (nextAddr_ne a).symm (by rwa [writeByte_cfg]), ramRead_writeByte_self hwf hlow]
  case right => exact ramRead_writeByte_self (by rwa [writeByte_cfg]) (by rwa [writeByte_cfg])

/-- R74 (P6), the read: both bytes come from RAM and no answer is drawn. -/
theorem readWord_of_transparent {s : State} {a : Addr} {lo hi : Byte} (hwf : s.cfg.map.WellFormed)
    (hlow : Transparent s.cfg s.mode a lo) (hhigh : Transparent s.cfg s.mode (nextAddr a) hi) :
    readWord a s = (joinBytes (ramRead s (nextAddr a)) (ramRead s a), s) := by
  rw [readWord, readByte_of_transparent hwf hlow, readByte_of_transparent hwf hhigh]

/-- Settles O33: P5's condition under MODE after the word holds of each byte under MODE at its own write (`transparent_low_of_writeWord`,
`transparent_high_of_writeWord`), so both bytes are stored (`ramRead_writeWord_self`), where the excluded case is the one in which the hook
would replace the low byte; and RDW reads them from RAM (`readWord_of_transparent`). -/
theorem wordRoundTrip : Obligations.WordRoundTrip := by
  intro s t a v hmap hready hwrite hlow hhigh hexcluded
  obtain rfl := Host.Outcome.next.inj ((exec_wrw hready a v).symm.trans hwrite)
  have hwf : s.cfg.map.WellFormed := wellFormed_of_r6 hmap
  have hhook (ha : nextAddr a = Parameters.triggerAddr) (hv : highByte v = Parameters.triggerValue) : ¬ hookCovers s.cfg a := by
    obtain rfl : a = 0x0138 := by
      have ha : a + 1 = 0x0139 := ha
      bv_omega
    exact fun hcovers => hexcluded ⟨rfl, hv, hcovers⟩
  obtain ⟨hlowRam, hhighRam⟩ := ramRead_writeWord_self hwf (transparent_low_of_writeWord hmap hlow)
    (transparent_high_of_writeWord hwf hhigh) hhook
  have hcfg : (respond .ack (writeWord a v s)).cfg = s.cfg := writeWord_cfg a v s
  have hready' : (respond .ack (writeWord a v s)).phase = .ready := (writeWord_phase a v s).trans hready
  have hread : readWord a (respond .ack (writeWord a v s)) = (v, respond .ack (writeWord a v s)) := by
    rw [readWord_of_transparent (hcfg ▸ hwf) (hcfg ▸ hlow) (hcfg ▸ hhigh), ramRead_respond, ramRead_respond, hlowRam, hhighRam,
      joinBytes_high_low]
  exact ⟨_, exec_rdw hready' a, by rw [hread]; rfl⟩

/-- R6's values with one payload byte, at the address before TRIGGER_ADDR. -/
def patchedBeforeTrigger : Config where
  map := Parameters.r6
  basicImg := []
  charImg := []
  kernalImg := []
  romPatches := []
  ramPayloads := [.monitor 0x0138 [0x00]]
  endPtrAddr := 0x002D

/-- A machine of that configuration before the word write that refutes P6 as worded. -/
def beforeOverlookedWrite : State where
  cfg := patchedBeforeTrigger
  phase := .ready
  ram := []
  rom := []
  latch := 0x07
  trace := []
  responses := []
  requests := []
  devAnswers := []
  vicBases := []
  draws := 0

theorem not_hookCovers_trigger : ¬ hookCovers patchedBeforeTrigger Parameters.triggerAddr := by
  rintro ⟨p, hp, hcovers⟩
  obtain rfl : p = .monitor 0x0138 [0x00] := List.mem_singleton.1 hp
  obtain ⟨i, hi, h⟩ := hcovers
  obtain rfl : i = 0 := Nat.lt_one_iff.1 hi
  exact absurd h (by decide)

/-- Refutes O34: WRW of 0xFF42 at 0x0138 stores 0x42 there, then its high byte triggers the hook, which lays the payload's 0x00 over it; RDW
answers 0xFF00. -/
theorem not_wordRoundTripAsWorded : ¬ Obligations.WordRoundTripAsWorded := by
  intro h
  have hlow (mode : ModeTable) : Transparent patchedBeforeTrigger mode 0x0138 0x42 :=
    .inl ⟨by decide, fun h => absurd h.1 (by decide), fun h => absurd h.1 (by decide)⟩
  have hhigh (mode : ModeTable) : Transparent patchedBeforeTrigger mode 0x0139 0xFF :=
    .inl ⟨by decide, fun h => absurd h.1 (by decide), fun h => not_hookCovers_trigger h.2.2⟩
  obtain ⟨u, hread, hanswer⟩ := h beforeOverlookedWrite _ 0x0138 0xFF42 rfl rfl (exec_wrw rfl 0x0138 0xFF42) (hlow _) (hhigh _)
  obtain rfl := Host.Outcome.next.inj ((exec_rdw rfl 0x0138).symm.trans hread)
  exact absurd hanswer (by decide)

end Sys2Proof.Machine
end

section
/-! PROOFS. The statements of spec/43_vic_bus_view.md: what VRD answers (R75, R76), that it depends on no bank configuration (R77), and the
bases from which no override window is reached (R75 (e)). -/

namespace Sys2Proof.Machine

/-! ### What VRD answers -/

/-- R75, R77: the video view depends on the planes and the map alone. -/
theorem vicShows_congr {s t : State} (hram : t.ram = s.ram) (hrom : t.rom = s.rom) (hcfg : t.cfg = s.cfg) (full : Addr) :
    vicShows full t = vicShows full s := by
  simp only [vicShows, ramRead, romRead, hram, hrom, hcfg]

/-- R75: outside the override windows the view shows RAM. -/
theorem vicShows_of_not_vicOverride {full : Addr} (h : ¬ VicOverride full) (s : State) : vicShows full s = ramRead s full := if_neg h

/-- R75: the call of VicBase changes nothing that the view shows, so the byte is the one the state before it shows. -/
theorem vicReadByte_eq (l : Addr) (s : State) :
    vicReadByte l s = (vicShows (vicFullAddr (nextVicBase s) l) s, (vicBase s).2) :=
  congrArg (·, (vicBase s).2) (vicShows_congr (vicBase_ram s) (vicBase_rom s) (vicBase_cfg s) _)

theorem answerByte_vicReadByte_responses (l : Addr) (s : State) : (answerByte (vicReadByte l s)).responses =
    s.responses ++ [.data (zext16 (vicShows (vicFullAddr (nextVicBase s) l) s))] := by
  rw [vicReadByte_eq, answerByte, respond_responses, vicBase_responses]

/-- Settles O39: the byte is what the state before the request shows (`vicReadByte_eq`), and what is left of the request is the call of
VicBase and the response. -/
theorem videoReadShows : Obligations.VideoReadShows := by
  intro s l hready
  rw [exec_vrd hready l, vicReadByte_eq]
  rfl

/-! ### Independence of the bank configuration -/

/-- R77: a load of the latch before a video read might as well come after it. That both reads draw one base is log 9. -/
theorem vicReadByte_loadLatch (l : Addr) (v : Byte) (s : State) :
    vicReadByte l { s with latch := v } = ((vicReadByte l s).1, { (vicReadByte l s).2 with latch := v }) :=
  Prod.ext (vicShows_congr (s := (vicBase s).2) (t := (vicBase { s with latch := v }).2) rfl rfl rfl _) rfl

/-- Settles O40: the load of the latch moves past the read (`vicReadByte_loadLatch`), the read changes what its call of VicBase changes, and
outside the override windows it shows RAM. -/
theorem videoReadIndependentOfLatch : Obligations.VideoReadIndependentOfLatch := by
  intro s l v hready
  refine ⟨answerByte (vicReadByte l s), exec_vrd hready l, ?otherLatch, rfl, rfl, rfl, rfl, rfl, fun hram => ?shown⟩
  case otherLatch =>
    rw [exec_vrd (s := { s with latch := v }) hready l, vicReadByte_loadLatch]
    rfl
  case shown => rw [answerByte_vicReadByte_responses, vicShows_of_not_vicOverride hram, zext16]

/-! ### The bases without an override window -/

/-- R46: the 14 bits that reach the video bus, as a number. -/
theorem and_vicLocalMask (l : Addr) : l &&& Parameters.vicLocalMask = BitVec.ofNat 16 (l.toNat % 16384) := by
  apply BitVec.eq_of_toNat_eq
  have hmask : (l &&& Parameters.vicLocalMask).toNat = l.toNat % 16384 := Nat.and_two_pow_sub_one_eq_mod l.toNat 14
  rw [hmask, BitVec.toNat_ofNat]
  omega

/-- R75 (e): the 16 KiB from such a base have no address in common with an override window, and the sum does not wrap. -/
theorem not_vicOverride_of_highBank {base : Word} (h : base = 0x4000 ∨ base = 0xC000) (l : Addr) :
    ¬ VicOverride (vicFullAddr base l) := by
  simp only [VicOverride, Window.Has, Parameters.vicOvr1, Parameters.vicOvr2, vicFullAddr, and_vicLocalMask]
  obtain rfl | rfl := h <;> bv_omega

/-- Settles O41: no full address of these bases is an override address (`not_vicOverride_of_highBank`), so the view shows RAM. -/
theorem videoReadFromHighBanksIsRam : Obligations.VideoReadFromHighBanksIsRam := by
  rintro s l _ hready rfl hbase
  refine ⟨answerByte (vicReadByte l s), exec_vrd hready l, ?_⟩
  rw [answerByte_vicReadByte_responses, vicShows_of_not_vicOverride (not_vicOverride_of_highBank hbase l), vicFullAddr, and_vicLocalMask,
    zext16]

end Sys2Proof.Machine
end

section
/-! PROOFS. The statements of spec/44_rom_loader_patcher.md: the RAM-patch hook that the trigger store runs (R82 to R86), and what RESET
constructs (R78 to R81). -/

namespace Sys2Proof.Machine

/-! ### The trigger store -/

/-- The state after an answered trigger store; the tie to the model is `exec_trigger`. -/
def State.triggered (s : State) : State := respond .ack (runHook (ramWrite Parameters.triggerAddr Parameters.triggerValue s))

variable {s : State} {x : Addr}

theorem exec_trigger (hwf : s.cfg.map.WellFormed) (hready : s.phase = .ready) :
    exec (.wrb Parameters.triggerAddr Parameters.triggerValue) s = .next s.triggered := by
  rw [exec_wrb hready, writeByte_trigger hwf, State.triggered]

theorem triggered_eq (s : State) : s.triggered =
    { s with ram := s.triggered.ram, trace := s.trace ++ [.hook], responses := s.responses ++ [.ack] } := rfl

/-- R82: where no payload lies, RAM after the trigger store is what the store alone leaves. -/
theorem ramRead_triggered_of_not_hookCovers (h : ¬ hookCovers s.cfg x) :
    ramRead s.triggered x = if Parameters.triggerAddr = x then Parameters.triggerValue else ramRead s x := by
  rw [State.triggered, ramRead_respond, ramRead_runHook (s := ramWrite _ _ s) h, ramRead_ramWrite]

theorem ramRead_triggered_trigger (h : ¬ hookCovers s.cfg Parameters.triggerAddr) :
    ramRead s.triggered Parameters.triggerAddr = Parameters.triggerValue := by
  rw [ramRead_triggered_of_not_hookCovers h, if_pos rfl]

theorem ramRead_triggered_of_ne (h : ¬ hookCovers s.cfg x) (hx : x ≠ Parameters.triggerAddr) : ramRead s.triggered x = ramRead s x := by
  rw [ramRead_triggered_of_not_hookCovers h, if_neg hx.symm]

/-- The RAM plane that the trigger store and the payloads before one leave to that one. -/
def State.ramBefore (s : State) (pre : List Payload) : Memory :=
  pre.foldl (copyPayload s.cfg.endPtrAddr) (ramWrite Parameters.triggerAddr Parameters.triggerValue s).ram

/-- R82: a payload's copy is seen where no later payload covers the address. -/
theorem ramRead_triggered_last {pre post : List Payload} {p : Payload} (hc : s.cfg.ramPayloads = pre ++ p :: post)
    (h : ∀ q ∈ post, ¬ payloadCovers s.cfg.endPtrAddr x q) :
    ramRead s.triggered x = Memory.read ramFill (copyPayload s.cfg.endPtrAddr (s.ramBefore pre) p) x.toNat :=
  patchRam_last s.cfg x _ hc h

/-! ### A program image's copy (R84, R85) -/

section
variable (endPtr : Addr) (lo hi : Byte) (bytes : List Byte) (m : Memory)

theorem read_copyProgram_endPtr :
    Memory.read ramFill (copyProgram endPtr lo hi bytes m) endPtr.toNat = lowByte (programEnd lo hi bytes) := by
  rw [copyProgram, Memory.read_write_addr, if_neg (nextAddr_ne endPtr), Memory.read_write_same]

theorem read_copyProgram_nextAddr_endPtr :
    Memory.read ramFill (copyProgram endPtr lo hi bytes m) (nextAddr endPtr).toNat = highByte (programEnd lo hi bytes) := by
  rw [copyProgram, Memory.read_write_same]

/-- Outside the pointer pair the copy is the image's. -/
theorem read_copyProgram_of_ne (hlow : x ≠ endPtr) (hhigh : x ≠ nextAddr endPtr) :
    Memory.read ramFill (copyProgram endPtr lo hi bytes m) x.toNat =
      Memory.read ramFill (Memory.writeBytes ramFill m (programStart lo hi) bytes) x.toNat := by
  rw [copyProgram, Memory.read_write_addr, if_neg hhigh.symm, Memory.read_write_addr, if_neg hlow.symm]

end

/-- Settles O36: a byte of the image is what its copy leaves, where no later payload covers it (`ramRead_triggered_last`) and no later byte
of it wraps onto it; what no payload covers is what the store alone leaves. -/
theorem triggerCopiesMonitor : Obligations.TriggerCopiesMonitor := by
  intro s pre post dest bytes hwf hready hpayloads
  refine ⟨s.triggered, exec_trigger hwf hready, triggered_eq s, fun i hi hlen hkept => ?copied, ramRead_triggered_trigger,
    fun x => ramRead_triggered_of_ne⟩
  case copied =>
    rw [ramRead_triggered_last hpayloads hkept]
    exact Memory.read_writeBytes_inside ramFill _ dest bytes i hi hlen

/-- Settles O37, as O36; the pointer pair is written after the image and wins over it. -/
theorem triggerCopiesProgram : Obligations.TriggerCopiesProgram := by
  intro s pre post lo hi bytes hwf hready hpayloads start stop ptr kept
  refine ⟨s.triggered, exec_trigger hwf hready, triggered_eq s, fun hkept => ?low, fun hkept => ?high,
    fun i hi hlen hlow hhigh hkept => ?copied, ramRead_triggered_trigger, fun x => ramRead_triggered_of_ne⟩
  case low => exact (ramRead_triggered_last hpayloads hkept).trans (read_copyProgram_endPtr ptr lo hi bytes _)
  case high => exact (ramRead_triggered_last hpayloads hkept).trans (read_copyProgram_nextAddr_endPtr ptr lo hi bytes _)
  case copied =>
    rw [ramRead_triggered_last hpayloads hkept]
    exact (read_copyProgram_of_ne ptr lo _ bytes _ hlow hhigh).trans
      (Memory.read_writeBytes_inside ramFill _ start bytes i hi hlen)

/-! ### The trigger store twice (R86) -/

/-- What a trigger store does to RAM: the store, and the payloads over it. -/
def triggerRam (c : Config) (ram : Memory) : Memory :=
  patchRam c (Memory.write ramFill ram Parameters.triggerAddr.toNat Parameters.triggerValue)

theorem triggered_ram (s : State) : s.triggered.ram = triggerRam s.cfg s.ram := rfl

theorem triggered_triggered_ram (s : State) : s.triggered.triggered.ram = triggerRam s.cfg (triggerRam s.cfg s.ram) := rfl

theorem triggered_triggered_trace (s : State) : s.triggered.triggered.trace = s.trace ++ [.hook, .hook] :=
  List.append_assoc s.trace [.hook] [.hook]

theorem isOverlay_triggerRam (c : Config) : IsOverlay ramFill (triggerRam c) :=
  (isOverlay_patchRam c).comp (isOverlay_write ramFill _ _)

theorem triggerRam_wf (c : Config) {m : Memory} (h : Memory.wf ramFill m) : Memory.wf ramFill (triggerRam c m) :=
  patchRam_wf c (Memory.write_addr_wf h _ _)

theorem triggerRam_twice (c : Config) {m : Memory} (h : Memory.wf ramFill m) : triggerRam c (triggerRam c m) = triggerRam c m :=
  Memory.ext_of_wf (triggerRam_wf c (triggerRam_wf c h)) (triggerRam_wf c h) fun a _ => (isOverlay_triggerRam c).twice m a

/-- Settles O38: a trigger store lays fixed bytes over RAM (`isOverlay_triggerRam`), and laying them twice is laying them once; canonical
planes that read alike are equal (`triggerRam_twice`). -/
theorem triggerTwiceAsOnce : Obligations.TriggerTwiceAsOnce := by
  intro s hwf hready
  refine ⟨s.triggered, s.triggered.triggered, exec_trigger hwf hready, exec_trigger (s := s.triggered) hwf hready, rfl,
    triggered_triggered_trace s, fun x => ?reads, fun hram => ?equal, fun x => ramRead_triggered_of_ne⟩
  case reads => exact (isOverlay_triggerRam s.cfg).twice s.ram x.toNat
  case equal => rw [triggered_triggered_ram, triggered_ram, triggerRam_twice s.cfg hram]

/-! ### Construction -/

/-- The state after a successful construction; the tie to the model is `exec_reset_builds`. -/
def State.built (s : State) : State :=
  { s with phase := .ready, ram := ramBuilt s.cfg, rom := romBuilt s.cfg, latch := s.cfg.map.defaultLatch, trace := [],
           responses := s.responses ++ [.ready] }

theorem construct_of_sizesRight (h : s.cfg.SizesRight) : construct s = s.built := by
  obtain ⟨image, size, hwrong, -⟩ | ⟨-, hbuilt⟩ := construct_cases s
  · exact nomatch hwrong.symm.trans ((wrongSize_none_iff s.cfg).2 h)
  · exact hbuilt

/-- R78: of RESET's four answers (`exec_reset_cases`) the one in phase UNBUILT with a well-formed configuration. -/
theorem exec_reset_builds (hphase : s.phase = .unbuilt) (hwf : s.cfg.WellFormed) (hsizes : s.cfg.SizesRight) :
    exec .reset s = .next s.built := by
  obtain ⟨-, -, h⟩ | ⟨-, hill, -⟩ | ⟨hready, -⟩ | ⟨hfailed, -⟩ := exec_reset_cases s
  · rw [h, construct_of_sizesRight hsizes]
  · exact absurd hwf hill
  · exact nomatch hphase.symm.trans hready
  · exact nomatch hphase.symm.trans hfailed

/-- R27: RAM after construction is the fill but for the latch byte at CTRL_ADDR. -/
theorem ramRead_built (s : State) (a : Addr) :
    ramRead s.built a = if s.cfg.map.ctrlAddr = a then s.cfg.map.defaultLatch else ramFill a.toNat :=
  Memory.read_write_addr ramFill [] s.cfg.map.ctrlAddr s.cfg.map.defaultLatch a

/-- Settles O42: the registers are read off `State.built`, RAM by `ramRead_built`. -/
theorem resetBuildsMachine : Obligations.ResetBuildsMachine := by
  intro s hphase hwf hsizes
  refine ⟨s.built, exec_reset_builds hphase hwf hsizes, rfl, ?ctrl, fun a ha => ?fill, fun hmap => ?mode⟩
  case ctrl => rw [ramRead_built, if_pos rfl]
  case fill => rw [ramRead_built, if_neg ha.symm, ramFill]
  case mode =>
    have hr6 : modeOf Parameters.r6 Parameters.r6.defaultLatch = ⟨.rom, .rom, .io⟩ := by decide
    rw [← hr6, ← hmap]
    rfl

/-! ### The images (R80) -/

section
variable {fill : Nat → Byte} {m : Memory} {base : Addr} {bs : List Byte}

/-- An image that fits in the plane does not wrap: its byte `i` stands `i` above its base. -/
theorem toNat_base_add (hfit : base.toNat + bs.length ≤ Parameters.planeSize) {i : Nat} (hi : i < bs.length) :
    (base + BitVec.ofNat 16 i).toNat = base.toNat + i := by
  rw [Parameters.planeSize] at hfit
  rw [BitVec.toNat_add, BitVec.toNat_ofNat]
  omega

theorem read_image_inside (hfit : base.toNat + bs.length ≤ Parameters.planeSize) {i : Nat} (hi : i < bs.length) :
    Memory.read fill (Memory.writeBytes fill m base bs) (base.toNat + i) = bs[i] := by
  rw [← toNat_base_add hfit hi]
  exact Memory.read_writeBytes_inside fill m base bs i hi (by omega)

theorem read_image_outside (hfit : base.toNat + bs.length ≤ Parameters.planeSize) {a : Nat}
    (ha : a < base.toNat ∨ base.toNat + bs.length ≤ a) :
    Memory.read fill (Memory.writeBytes fill m base bs) a = Memory.read fill m a := by
  refine Memory.read_writeBytes_outside fill m base bs fun i hi => ?_
  rw [toNat_base_add hfit hi]
  omega

end

section
variable {c : Config} (hmap : c.map = Parameters.r6) (hsizes : c.SizesRight) (m : Memory)

include hmap in
theorem loadImages_r6 : loadImages c m = Memory.writeBytes romFill (Memory.writeBytes romFill (Memory.writeBytes romFill m
    0xA000 c.basicImg) 0xD000 c.charImg) 0xE000 c.kernalImg := by
  rw [loadImages, hmap]
  rfl

include hsizes in
/-- R7, R79: images of the right sizes fit at R6's bases. -/
theorem images_fit_r6 :
    0xA000 + c.basicImg.length ≤ Parameters.planeSize ∧ 0xD000 + c.charImg.length ≤ Parameters.planeSize ∧
    0xE000 + c.kernalImg.length ≤ Parameters.planeSize := by
  obtain ⟨hbasic, hchar, hkernal⟩ := hsizes
  rw [hbasic, hchar, hkernal]
  decide

include hmap hsizes

theorem read_loadImages_kernal {i : Nat} (hi : i < c.kernalImg.length) :
    Memory.read romFill (loadImages c m) (0xE000 + i) = c.kernalImg[i] := by
  obtain ⟨-, -, hkernal⟩ := images_fit_r6 hsizes
  rw [loadImages_r6 hmap]
  exact read_image_inside (base := 0xE000) hkernal hi

/-- Below KERNAL_BASE the image loaded last leaves what the two before it leave. -/
theorem read_loadImages_below_kernal {a : Nat} (ha : a < 0xE000) : Memory.read romFill (loadImages c m) a =
    Memory.read romFill (Memory.writeBytes romFill (Memory.writeBytes romFill m 0xA000 c.basicImg) 0xD000 c.charImg) a := by
  obtain ⟨-, -, hkernal⟩ := images_fit_r6 hsizes
  rw [loadImages_r6 hmap]
  exact read_image_outside (base := 0xE000) hkernal (.inl ha)

theorem read_loadImages_char {i : Nat} (hi : i < c.charImg.length) :
    Memory.read romFill (loadImages c m) (0xD000 + i) = c.charImg[i] := by
  obtain ⟨-, hchar, -⟩ := images_fit_r6 hsizes
  have hbelow : 0xD000 + i < 0xE000 := Nat.add_lt_add_left (hi.trans_eq hsizes.2.1) 0xD000
  rw [read_loadImages_below_kernal hmap hsizes m hbelow]
  exact read_image_inside (base := 0xD000) hchar hi

/-- Below CHAR_BASE only the BASIC image is seen. -/
theorem read_loadImages_below_char {a : Nat} (ha : a < 0xD000) :
    Memory.read romFill (loadImages c m) a = Memory.read romFill (Memory.writeBytes romFill m 0xA000 c.basicImg) a := by
  obtain ⟨-, hchar, -⟩ := images_fit_r6 hsizes
  rw [read_loadImages_below_kernal hmap hsizes m (by omega)]
  exact read_image_outside (base := 0xD000) hchar (.inl ha)

theorem read_loadImages_basic {i : Nat} (hi : i < c.basicImg.length) :
    Memory.read romFill (loadImages c m) (0xA000 + i) = c.basicImg[i] := by
  obtain ⟨hbasic, -, -⟩ := images_fit_r6 hsizes
  have hend : 0xA000 + i < 0xC000 := Nat.add_lt_add_left (hi.trans_eq hsizes.1) 0xA000
  rw [read_loadImages_below_char hmap hsizes m (by omega)]
  exact read_image_inside (base := 0xA000) hbasic hi

/-- Below BASIC_BASE and between the BASIC and the CHAR image the load leaves the plane as it was. -/
theorem read_loadImages_outside {a : Nat} (ha : a < 0xA000 ∨ (0xC000 ≤ a ∧ a < 0xD000)) :
    Memory.read romFill (loadImages c m) a = Memory.read romFill m a := by
  obtain ⟨hbasic, -, -⟩ := images_fit_r6 hsizes
  rw [read_loadImages_below_char hmap hsizes m (by omega)]
  refine read_image_outside (base := 0xA000) hbasic (ha.imp_right fun h => ?_)
  rw [hsizes.1]
  exact h.1

end

theorem romRead_built (s : State) (a : Addr) :
    romRead s.built a = Memory.read romFill (patchRoms s.cfg.romPatches (loadImages s.cfg [])) a.toNat := rfl

theorem romRead_built_of_unpatched (h : s.cfg.romPatches = []) (a : Addr) :
    romRead s.built a = Memory.read romFill (loadImages s.cfg []) a.toNat := by
  rw [romRead_built, h]
  rfl

/-- Settles O43: without patches the ROM plane is what loading leaves (`romRead_built_of_unpatched`), image by image and outside of them. -/
theorem resetLoadsImages : Obligations.ResetLoadsImages := by
  intro s hphase hwf hsizes hmap hpatches
  have hfit := images_fit_r6 hsizes
  have hread (n : Nat) (hn : n < Parameters.planeSize) :
      romRead s.built (BitVec.ofNat 16 n) = Memory.read romFill (loadImages s.cfg []) n := by
    rw [romRead_built_of_unpatched hpatches, BitVec.toNat_ofNat, Nat.mod_eq_of_lt (show n < 2 ^ 16 from hn)]
  refine ⟨s.built, exec_reset_builds hphase hwf hsizes, fun i hi => ?basic, fun i hi => ?char, fun i hi => ?kernal, fun a ha => ?zeroed⟩
  case basic => rw [hread _ (by omega), read_loadImages_basic hmap hsizes [] hi]
  case char => rw [hread _ (by omega), read_loadImages_char hmap hsizes [] hi]
  case kernal => rw [hread _ (by omega), read_loadImages_kernal hmap hsizes [] hi]
  case zeroed => rw [romRead_built_of_unpatched hpatches, read_loadImages_outside hmap hsizes [] ha, Memory.read_nil, romFill]

/-! ### The ROM patches (R81) -/

/-- The last entry that names an offset wins. -/
theorem read_patchRoms_last {pre post : List (Addr × Byte)} {off : Addr} (b : Byte) (h : ∀ p ∈ post, p.1 ≠ off) (m : Memory) :
    Memory.read romFill (patchRoms (pre ++ (off, b) :: post) m) off.toNat = b := by
  calc Memory.read romFill (patchRoms (pre ++ (off, b) :: post) m) off.toNat
      = Memory.read romFill (patchRoms post (Memory.write romFill (patchRoms pre m) off.toNat b)) off.toNat := by
        rw [patchRoms_append]; rfl
    _ = b := by rw [patchRoms_outside post _ off h, Memory.read_write_same]

/-- Settles O44: the ROM plane is the patches laid over the images (`romRead_built`); `read_patchRoms_last` at a named offset, and at any
other one `patchRoms_outside`. -/
theorem resetAppliesPatches : Obligations.ResetAppliesPatches := by
  intro s hphase hwf hsizes
  refine ⟨s.built, State.built { s with cfg := { s.cfg with romPatches := [] } }, exec_reset_builds hphase hwf hsizes,
    exec_reset_builds hphase hwf hsizes, fun pre post off b hpatches hlater => ?named, fun a hunnamed => ?unnamed⟩
  case named => rw [romRead_built, hpatches, read_patchRoms_last b hlater]
  case unnamed =>
    rw [romRead_built, patchRoms_outside _ _ a hunnamed, romRead_built_of_unpatched rfl]
    rfl

end Sys2Proof.Machine
end

section
/-! PROOFS. The statements of spec/60_exceptions.md: the startup fault (R89, R90), the refusals of the lifecycle and the mark they leave
(R91), and the bus requests, which succeed in phase READY (R88). -/

namespace Sys2Proof

/-- The image of this name in a configuration (R6). -/
def Config.image (c : Config) : RomImage → List Byte
  | .basic => c.basicImg
  | .char => c.charImg
  | .kernal => c.kernalImg

/-- The size R6 gives this image. -/
def RomImage.rightSize : RomImage → Nat
  | .basic => Parameters.basicSize
  | .char => Parameters.charSize
  | .kernal => Parameters.kernalSize

end Sys2Proof

namespace Sys2Proof.Machine

variable {s : State}

/-! ### The startup fault -/

/-- R79, R89: the size check names an image of the wrong size, and the size it has. -/
theorem wrongSize_some {c : Config} {image : RomImage} {size : Nat} (h : wrongSize c = some (image, size)) :
    size = (c.image image).length ∧ size ≠ image.rightSize := by
  unfold wrongSize at h
  split at h
  case isTrue hbasic => cases h; exact ⟨rfl, hbasic⟩
  case isFalse =>
    split at h
    case isTrue hchar => cases h; exact ⟨rfl, hchar⟩
    case isFalse =>
      split at h
      case isTrue hkernal => cases h; exact ⟨rfl, hkernal⟩
      case isFalse => exact nomatch h

/-- R78: of RESET's four answers (`exec_reset_cases`) the one in phase UNBUILT with a well-formed configuration. -/
theorem exec_reset_constructs (hphase : s.phase = .unbuilt) (hwf : s.cfg.WellFormed) : exec .reset s = .next (construct s) := by
  obtain ⟨-, -, h⟩ | ⟨-, hill, -⟩ | ⟨hready, -⟩ | ⟨hfailed, -⟩ := exec_reset_cases s
  · exact h
  · exact absurd hwf hill
  · exact nomatch hphase.symm.trans hready
  · exact nomatch hphase.symm.trans hfailed

/-- Settles O45: RESET constructs, and of the two ends of a construction (`construct_cases`) the wrong size rules out the successful one;
`wrongSize_some` says which image the other one names. -/
theorem resetWithWrongSizeFails : Obligations.ResetWithWrongSizeFails := by
  intro s hphase hwf hsizes
  obtain ⟨image, size, hwrong, hfailed⟩ | ⟨hnone, -⟩ := construct_cases s
  · refine ⟨_, image, size, (exec_reset_constructs hphase hwf).trans (congrArg _ hfailed), rfl, rfl, rfl, rfl, ?named⟩
    case named =>
      have hnamed := wrongSize_some hwrong
      cases image with
      | basic => exact hnamed
      | char => exact hnamed
      | kernal => exact hnamed
  · exact absurd ((wrongSize_none_iff s.cfg).1 hnone) hsizes

/-! ### The refusals of the lifecycle -/

/-- R91: a bus request before construction. -/
theorem exec_bus_unbuilt (h : s.phase = .unbuilt) {i : Instr} (hi : i ≠ .reset) : exec i s = .next (refuse .notBuilt s) := by
  obtain ⟨effect, hserves⟩ := exec_bus_serves hi s
  exact hserves.trans (serve_unbuilt h effect)

/-- R90: FAILED refuses RESET (`exec_reset_cases`) as it refuses every bus request (`serve_failed`). -/
theorem exec_failed (h : s.phase = .failed) (i : Instr) : exec i s = .next (refuse .failed s) := by
  by_cases hi : i = .reset
  · subst hi
    obtain ⟨hunbuilt, -⟩ | ⟨hunbuilt, -⟩ | ⟨hready, -⟩ | ⟨-, hexec⟩ := exec_reset_cases s
    · exact nomatch h.symm.trans hunbuilt
    · exact nomatch h.symm.trans hunbuilt
    · exact nomatch h.symm.trans hready
    · exact hexec
  · obtain ⟨effect, hserves⟩ := exec_bus_serves hi s
    exact hserves.trans (serve_failed h effect)

/-- Settles O47, phase by phase. -/
theorem lifecycleRefusals : Obligations.LifecycleRefusals := fun _ i =>
  ⟨fun hunbuilt hi => exec_bus_unbuilt hunbuilt hi, fun hready => exec_reset_ready hready, fun hfailed => exec_failed hfailed i⟩

/-- R90: a request taken in phase FAILED is refused, by `exec_failed` where its word decodes and by `wordRefusal` where it does not. -/
theorem step_failed_refuses (h : s.phase = .failed) (hq : s.requests ≠ []) : step s = .next (refuse .failed s.popRequest) := by
  obtain ⟨hnil, -⟩ | ⟨w, rest, i, hcons, -, hstep⟩ | ⟨w, rest, r, hcons, -, hstep⟩ := step_cases s
  · exact absurd hnil hq
  · rw [hstep, ← popRequest_of_cons hcons]
    exact exec_failed (s := s.popRequest) h i
  · rw [hstep, ← popRequest_of_cons hcons, h, wordRefusal_failed]

/-- Settles O48: with an empty queue the step idles, and with a request it refuses (`step_failed_refuses`). -/
theorem failedIsFinal : Obligations.FailedIsFinal := by
  intro s hfailed
  by_cases hq : s.requests = []
  · exact ⟨s, stepWithoutRequestIdles s hq, (popRequest_of_nil hq).symm, fun hne => absurd hq hne⟩
  · exact ⟨_, step_failed_refuses hfailed hq, rfl, fun _ => rfl⟩

/-! ### Bus requests in phase READY -/

/-- R48, request by request: the effect records no response of its own, and then data or an acknowledgement is given. -/
theorem exec_bus_responds (h : s.phase = .ready) {i : Instr} (hi : i ≠ .reset) :
    ∃ u r, exec i s = .next (respond r u) ∧ u.responses = s.responses ∧ (r = .ack ∨ ∃ v, r = .data v) := by
  cases i with
  | rdb a => exact ⟨_, _, exec_rdb h a, readByte_responses a s, .inr ⟨_, rfl⟩⟩
  | wrb a v => exact ⟨_, _, exec_wrb h a v, writeByte_responses a v s, .inl rfl⟩
  | rdw a => exact ⟨_, _, exec_rdw h a, readWord_responses a s, .inr ⟨_, rfl⟩⟩
  | wrw a v => exact ⟨_, _, exec_wrw h a v, writeWord_responses a v s, .inl rfl⟩
  | rdbn a => exact ⟨_, _, exec_rdbn h a, rfl, .inr ⟨_, rfl⟩⟩
  | wrbn a v => exact ⟨_, _, exec_wrbn h a v, rfl, .inl rfl⟩
  | rdwn a => exact ⟨_, _, exec_rdwn h a, rfl, .inr ⟨_, rfl⟩⟩
  | wrwn a v => exact ⟨_, _, exec_wrwn h a v, rfl, .inl rfl⟩
  | vrd a => exact ⟨_, _, exec_vrd h a, vicBase_responses s, .inr ⟨_, rfl⟩⟩
  | reset => exact absurd rfl hi

/-- Settles O49: the response is `exec_bus_responds`'s, and the phase stands by `exec_bus_steady`. -/
theorem steadyStateAlwaysSucceeds : Obligations.SteadyStateAlwaysSucceeds := by
  intro s i hready hi
  obtain ⟨u, r, hexec, hresponses, hsucceeds⟩ := exec_bus_responds hready hi
  obtain ⟨t, hexec', hsteady⟩ := exec_bus_steady hi s
  obtain rfl := Host.Outcome.next.inj (hexec'.symm.trans hexec)
  exact ⟨_, r, hexec, hsteady.phase.trans hready, congrArg (· ++ [r]) hresponses, hsucceeds⟩

/-! ### The mark of a refusal -/

theorem construct_responsesGrow (s : State) : s.responses <+: (construct s).responses := by
  obtain ⟨image, size, -, h⟩ | ⟨-, h⟩ := construct_cases s <;> rw [h]
  · exact ⟨_, rfl⟩
  · exact ⟨_, rfl⟩

/-- R48, R107: no step takes a response back. -/
theorem step_responsesGrow {t : State} (hstep : step s = .next t) : s.responses <+: t.responses := by
  obtain ⟨u, h, hsteady⟩ | ⟨-, -, h⟩ | ⟨-, h⟩ := step_steady_or_constructs s
  · obtain rfl := Host.Outcome.next.inj (h.symm.trans hstep)
    exact hsteady.responsesGrow
  · obtain rfl := Host.Outcome.next.inj (h.symm.trans hstep)
    exact construct_responsesGrow s.popRequest
  · exact nomatch h.symm.trans hstep

/-- Settles O52: the refusal stands among the responses after the step too, since they only grow (`step_responsesGrow`). -/
theorem refusalMarkIsKept : Obligations.RefusalMarkIsKept := by
  intro s t hmarked hstep
  obtain ⟨r, hr, hrefusal⟩ := List.any_eq_true.1 hmarked
  exact List.any_eq_true.2 ⟨r, (step_responsesGrow hstep).subset hr, hrefusal⟩

end Sys2Proof.Machine
end
